-- ==== Sys2Proof/Word.lean ====
section
/-!
DEFINITION. The value types of the TWE: 32-bit register words (00_scope.md R10), the 25 register addresses
(10_state.md R22) and the physical-quantity values (R10 `Q`, R12 `NUMERIC`).
-/
namespace Sys2Proof

/-- `Word32` of R10: an unsigned 32-bit register word. No rule reads a word as signed. -/
abbrev Word := BitVec 32

/-- A register address that exists: 0 .. 24 (R22, R41). The 5-bit address FIELD of a command may also hold
25 .. 31; it is a `Nat` in `Instr` and is checked against this range by the command (R43). -/
abbrev Addr := Fin 25

/-- The two channels (R7 `NCH`). -/
inductive Channel where
  | ch0
  | ch1
deriving DecidableEq, Repr

/-- A physical-unit value, or an intermediate of the arithmetic on such values. `fin q` is the exact rational `q`
(R10 `Q`); `inf` (with its sign) and `nan` are the non-finite values that exist only under `NUMERIC = binary64`
(R94). The sign of a binary64 zero is not kept: see notes/assumptions/10.md. -/
inductive Quantity where
  | fin (q : Rat)
  | inf (neg : Bool)
  | nan
deriving DecidableEq, Repr, Inhabited

end Sys2Proof
end

