-- ==== Sys2Proof/Config.lean ====
section
/-!
DEFINITION. What an implementation of the TWE fixes (00_scope.md R8): the arithmetic `NUMERIC`, the form of the
figure of merit, the values the model names for the parameters the spec leaves open, and the one free value.
-/
namespace Sys2Proof

/-- `NUMERIC` (R8, R12; 92_eei_decisions.md D3): the arithmetic of physical-unit values. `exact` is the default. -/
inductive Numeric where
  | exact
  | binary64
deriving DecidableEq, Repr

/-- `FOM` (R8; 92_eei_decisions.md D7): which figure of merit the block computes. `integral` is the default, the
integral of R141 by the closed form of R142; `signedTail` is D7's "known alternative", "a signed tail with
`m = nFull` unclipped" (notes/assumptions/13.md); `given k` is the open parameter itself, a function the model's user
supplies, of which nothing is known (`Config.fomExact`, `Config.fomBinary64`; notes/assumptions/22.md). -/
inductive FomForm where
  | integral
  | signedTail
  | given (k : Nat)
deriving DecidableEq, Repr

/-- OPEN PARAMETER (R8, D7; notes/assumptions/22.md): the `k`-th supplied figure of merit `FOM(D, T, tau, dw, nFull)` on
exact rationals. It has no body, so what is proved of a block that uses it holds for every function. -/
opaque Config.fomExact : Nat → Rat → Rat → Rat → Int → Int → Rat

/-- OPEN PARAMETER (R8, R161; notes/assumptions/22.md): the same figure of merit computed under `NUMERIC = binary64`. -/
opaque Config.fomBinary64 : Nat → Quantity → Quantity → Quantity → Int → Int → Quantity

/-- The three integer parts of R11. -/
inductive IntPart where
  | trunc
  | floor
  | ceil
deriving DecidableEq, Repr

/-- FREE VALUE (DESIGN CHOICE, notes/assumptions/9.md): the integer a `trunc`, `floor` or `ceil` of R11 yields on a
value that is not finite. The spec states none; it can be asked for only under `NUMERIC = binary64`, when finite
operands overflow. A function of its operands, so that the commands stay pure (R93, R160). It has no body. -/
opaque Config.nonFiniteInt : IntPart → Quantity → Int

/-- DESIGN CHOICE (notes/assumptions/1.md): `REF_CLK` of the state `State.reset`, in Hz; with `pllMult` it gives the
one system clock the spec names, 500 MHz (95_test_vectors.md). -/
def Config.refClk : Rat := 25000000

/-- DESIGN CHOICE (notes/assumptions/1.md): `PLL_MULT` of the state `State.reset`. -/
def Config.pllMult : Rat := 20

/-- DESIGN CHOICE (notes/assumptions/2.md): every word of `BANK_RESET` in `State.reset` (R31 leaves it open). -/
def Config.bankResetWord : Word := 0

/-- DESIGN CHOICE (notes/assumptions/3.md): both bits of `CHEN_RESET` in `State.reset` (R32 leaves it open). -/
def Config.chenReset : Bool := true

end Sys2Proof
end

