-- ==== Sys2Proof/Syntax.lean ====
section
/-!
DEFINITION. The TWE's commands as typed terms (30_encoding.md R62, R65): one constructor of `Instr` per row of
spec/opcode_table.json; the decoded header `Header` (R73) and the items that cross the command port (R55, R65).
-/
namespace Sys2Proof

/-- The ramp type field `T` of format R (R66). `none` is a legal field value; the command then faults (R150). -/
inductive RampType where
  | none
  | amp
  | freq
  | phase
deriving DecidableEq, Repr

/-- One item on the command port: a 32-bit word (a header, or a `Word32` operand), or a physical quantity
(a `Q` operand; 91_not_in_source.md N6: it has no binary form). -/
inductive Token where
  | word (w : Word)
  | quantity (x : Quantity)
deriving DecidableEq, Repr

/-- A command: opcode, header fields and operands (R62, R65). Address fields `a` and shifts `sh` are naturals
(R19); `Instr.wf` says which values their 5-bit fields can hold. -/
inductive Instr where
  /-- ENC_FREQ X (Hz), R81. -/
  | encFreq (x : Rat)
  /-- ENC_PHASE X (degrees), R84. -/
  | encPhase (x : Rat)
  /-- ENC_AMP X (fraction of full scale), R87. -/
  | encAmp (x : Rat)
  /-- SET_CHEN e0, e1, R101. -/
  | setChen (e0 e1 : Bool)
  /-- SET_FIELD a, V, u, R102. -/
  | setField (a : Nat) (u : Bool) (v : Word)
  /-- READ_CUR a, R105. -/
  | readCur (a : Nat)
  /-- READ_BANK c, a, R108. -/
  | readBank (c : Channel) (a : Nat)
  /-- RMW_FIELD a, M, s, V, u, R110. -/
  | rmwField (a : Nat) (u : Bool) (sh : Nat) (m v : Word)
  /-- RAMP_OPT type, S0, E0, TR, TF, R130. -/
  | rampOpt (t : RampType) (s0 e0 tr tf : Rat)
deriving DecidableEq, Repr

/-- A decoded header (R73): the command less its operand list. -/
inductive Header where
  | encFreq
  | encPhase
  | encAmp
  | setChen (e0 e1 : Bool)
  | setField (a : Nat) (u : Bool)
  | readCur (a : Nat)
  | readBank (c : Channel) (a : Nat)
  | rmwField (a : Nat) (u : Bool) (sh : Nat)
  | rampOpt (t : RampType)
deriving DecidableEq, Repr

/-- The kind of one operand (R77). -/
inductive OperandKind where
  | word
  | quantity
deriving DecidableEq, Repr

/-- Why the decoder refuses an item of the command port (R65: a value outside an operand's type cannot be presented,
"which a decoder enforces by refusing it"). -/
inductive PortError where
  /-- a physical quantity stands where a command's header must stand -/
  | headerKind
  /-- a word stands where a physical quantity must stand, or the reverse -/
  | operandKind
  /-- the quantity is infinite or not a number: it has no word or ramp result (R94, 93_implementation_defined.md U4) -/
  | nonFinite
deriving DecidableEq, Repr

/-- What the decoder makes of the items waiting on the command port. -/
inductive Decoded where
  /-- a whole command, and the items after it -/
  | ok (i : Instr) (rest : List Token)
  /-- the header faults `ILLEGAL_OP`; the command ends at its header (R77), `rest` are the items after the header -/
  | illegal (rest : List Token)
  /-- nothing waits, or the operand list has not arrived whole -/
  | incomplete
  /-- the port carries an item that cannot be presented there -/
  | refused (e : PortError)
deriving DecidableEq, Repr

end Sys2Proof
end

