-- ==== Sys2Proof/WellFormed.lean ====
section
/-!
DEFINITION. Which commands the header encoding can carry (30_encoding.md R57): the 5-bit fields `A` and `S`.
-/
namespace Sys2Proof

/-- A value the 5-bit fields `A` and `S` of format S can hold (R57). -/
def fits5 (n : Nat) : Bool := n < 32

/-- The command can be encoded: its address and shift fit their fields. An address 25 .. 31 IS well-formed; the
command then faults `ADDR_RANGE` (R43). The other operands carry their range in their type (R65). -/
def Instr.wf : Instr → Bool
  | .encFreq _ => true
  | .encPhase _ => true
  | .encAmp _ => true
  | .setChen _ _ => true
  | .setField a _ _ => fits5 a
  | .readCur a => fits5 a
  | .readBank _ a => fits5 a
  | .rmwField a _ sh _ _ => fits5 a && fits5 sh
  | .rampOpt _ _ _ _ _ => true

/-- The header's fields fit (the same check, before the operands are read). -/
def Header.wf : Header → Bool
  | .encFreq => true
  | .encPhase => true
  | .encAmp => true
  | .setChen _ _ => true
  | .setField a _ => fits5 a
  | .readCur a => fits5 a
  | .readBank _ a => fits5 a
  | .rmwField a _ sh => fits5 a && fits5 sh
  | .rampOpt _ => true

end Sys2Proof
end

