-- ==== Sys2Proof/Decode.lean ====
section
/-!
DEFINITION. Decoding the command port (30_encoding.md R56 to R59, R62 to R66, R73, R77), total on any list of items,
and after it the encoder, written from the same tables; the pseudo-instructions of R72 and the assembler text of R71.
-/
namespace Sys2Proof

/-- `H[31:28]`, the opcode (R56). -/
def Word.opcode (h : Word) : Nat := (h.extractLsb' 28 4).toNat

/-- `H[27:23]`, the address field `A` (R57). -/
def Word.fieldA (h : Word) : Nat := (h.extractLsb' 23 5).toNat

/-- `H[22]`, the apply flag `U` (R57). -/
def Word.fieldU (h : Word) : Bool := h.getLsbD 22

/-- `H[21]`, the channel `C` (R57). -/
def Word.fieldC (h : Word) : Channel := if h.getLsbD 21 then .ch1 else .ch0

/-- `H[4:0]`, the field shift `S` (R57). -/
def Word.fieldS (h : Word) : Nat := (h.extractLsb' 0 5).toNat

/-- `H[27:26]`, the ramp type `T` (R59, R66: 0 none, 1 AMP, 2 FREQ, 3 PHASE). -/
def Word.fieldT (h : Word) : RampType :=
  match (h.extractLsb' 26 2).toNat with
  | 0 => .none
  | 1 => .amp
  | 2 => .freq
  | _ => .phase

/-- The header `hd` if the reserved bits `rsv` are all 0, else `ILLEGAL_OP` (R64). -/
def ifReservedZero {n : Nat} (rsv : BitVec n) (hd : Header) : Option Header :=
  if rsv = 0 then some hd else none

/-- The decoding procedure of R73; `none` is `ILLEGAL_OP`. -/
def decodeHeader (h : Word) : Option Header :=
  match Word.opcode h with
  | 0x1 => ifReservedZero (h.extractLsb' 0 28) .encFreq
  | 0x2 => ifReservedZero (h.extractLsb' 0 28) .encPhase
  | 0x3 => ifReservedZero (h.extractLsb' 0 28) .encAmp
  | 0x4 => ifReservedZero (h.extractLsb' 2 26) (.setChen (h.getLsbD 0) (h.getLsbD 1))
  | 0x5 => ifReservedZero (h.extractLsb' 0 22) (.setField (Word.fieldA h) (Word.fieldU h))
  | 0x6 => ifReservedZero (h.extractLsb' 0 23) (.readCur (Word.fieldA h))
  | 0x7 => ifReservedZero (h.extractLsb' 22 1 ++ h.extractLsb' 0 21) (.readBank (Word.fieldC h) (Word.fieldA h))
  | 0x8 => ifReservedZero (h.extractLsb' 5 17) (.rmwField (Word.fieldA h) (Word.fieldU h) (Word.fieldS h))
  | 0x9 => ifReservedZero (h.extractLsb' 0 26) (.rampOpt (Word.fieldT h))
  | _ => none

/-- The operand list of each opcode, in order (R77). -/
def Header.operandKinds : Header → List OperandKind
  | .encFreq => [.quantity]
  | .encPhase => [.quantity]
  | .encAmp => [.quantity]
  | .setChen _ _ => []
  | .setField _ _ => [.word]
  | .readCur _ => []
  | .readBank _ _ => []
  | .rmwField _ _ _ => [.word, .word]
  | .rampOpt _ => [.quantity, .quantity, .quantity, .quantity]

/-- Read one `Word32` operand (R65). -/
def readWord (ts : List Token) (k : Word → List Token → Decoded) : Decoded :=
  match ts with
  | [] => .incomplete
  | .word w :: rest => k w rest
  | .quantity _ :: _ => .refused .operandKind

/-- Read one `Q` operand (R65); a non-finite one is refused (R94, 93_implementation_defined.md U4). -/
def readQuantity (ts : List Token) (k : Rat → List Token → Decoded) : Decoded :=
  match ts with
  | [] => .incomplete
  | .quantity (.fin q) :: rest => k q rest
  | .quantity (.inf _) :: _ => .refused .nonFinite
  | .quantity .nan :: _ => .refused .nonFinite
  | .word _ :: _ => .refused .operandKind

/-- Read the operand list of a decoded header, in the order of R62 and R77. -/
def decodeOperands (hd : Header) (ts : List Token) : Decoded :=
  match hd with
  | .encFreq => readQuantity ts fun x r => .ok (.encFreq x) r
  | .encPhase => readQuantity ts fun x r => .ok (.encPhase x) r
  | .encAmp => readQuantity ts fun x r => .ok (.encAmp x) r
  | .setChen e0 e1 => .ok (.setChen e0 e1) ts
  | .setField a u => readWord ts fun v r => .ok (.setField a u v) r
  | .readCur a => .ok (.readCur a) ts
  | .readBank c a => .ok (.readBank c a) ts
  | .rmwField a u sh => readWord ts fun m r => readWord r fun v r => .ok (.rmwField a u sh m v) r
  | .rampOpt t =>
    readQuantity ts fun s0 r => readQuantity r fun e0 r => readQuantity r fun tr r => readQuantity r fun tf r =>
      .ok (.rampOpt t s0 e0 tr tf) r

/-- Read the next command from the command port: its header, then its operand list (R79). -/
def decode (ts : List Token) : Decoded :=
  match ts with
  | [] => .incomplete
  | .quantity _ :: _ => .refused .headerKind
  | .word h :: rest =>
    match decodeHeader h with
    | none => .illegal rest
    | some hd => decodeOperands hd rest

/-! ### The encoder -/

/-- The code of a ramp type in the field `T` (R66). -/
def RampType.code : RampType → Nat
  | .none => 0
  | .amp => 1
  | .freq => 2
  | .phase => 3

/-- The channel as the field `C` (R57). -/
def Channel.code : Channel → Nat
  | .ch0 => 0
  | .ch1 => 1

/-- The command less its operand list. -/
def Instr.header : Instr → Header
  | .encFreq _ => .encFreq
  | .encPhase _ => .encPhase
  | .encAmp _ => .encAmp
  | .setChen e0 e1 => .setChen e0 e1
  | .setField a u _ => .setField a u
  | .readCur a => .readCur a
  | .readBank c a => .readBank c a
  | .rmwField a u sh _ _ => .rmwField a u sh
  | .rampOpt t _ _ _ _ => .rampOpt t

/-- The header word of R56 to R59: each field placed at its position (`v << s` is `v × 2^s`, R9), reserved bits 0. -/
def encodeHeader : Header → Word
  | .encFreq => BitVec.ofNat 32 (0x1 * 2 ^ 28)
  | .encPhase => BitVec.ofNat 32 (0x2 * 2 ^ 28)
  | .encAmp => BitVec.ofNat 32 (0x3 * 2 ^ 28)
  | .setChen e0 e1 => BitVec.ofNat 32 (0x4 * 2 ^ 28 + e1.toNat * 2 ^ 1 + e0.toNat)
  | .setField a u => BitVec.ofNat 32 (0x5 * 2 ^ 28 + a * 2 ^ 23 + u.toNat * 2 ^ 22)
  | .readCur a => BitVec.ofNat 32 (0x6 * 2 ^ 28 + a * 2 ^ 23)
  | .readBank c a => BitVec.ofNat 32 (0x7 * 2 ^ 28 + a * 2 ^ 23 + c.code * 2 ^ 21)
  | .rmwField a u sh => BitVec.ofNat 32 (0x8 * 2 ^ 28 + a * 2 ^ 23 + u.toNat * 2 ^ 22 + sh)
  | .rampOpt t => BitVec.ofNat 32 (0x9 * 2 ^ 28 + t.code * 2 ^ 26)

/-- A `Q` operand as it stands on the command port. -/
def Token.ofRat (q : Rat) : Token := .quantity (.fin q)

/-- The operand list of a command, in the order of R77. -/
def Instr.operands : Instr → List Token
  | .encFreq x => [.ofRat x]
  | .encPhase x => [.ofRat x]
  | .encAmp x => [.ofRat x]
  | .setChen _ _ => []
  | .setField _ _ v => [.word v]
  | .readCur _ => []
  | .readBank _ _ => []
  | .rmwField _ _ _ m v => [.word m, .word v]
  | .rampOpt _ s0 e0 tr tf => [.ofRat s0, .ofRat e0, .ofRat tr, .ofRat tf]

/-- The items of a command on the command port: its header, then its operand list (R55, R77, R79). -/
def encode (i : Instr) : List Token := .word (encodeHeader i.header) :: i.operands

/-! ### Words numbered as spec/opcode_table.json numbers them -/

/-- The operand items that stand after a table word's header (notes/assumptions/16.md): a `Word32` operand takes the
next 32 bits above the header, which are 0 for every row of the table; a `Q` operand has no bits (N6) and is 0. -/
def tableOperands (bits : Nat) : List OperandKind → List Token
  | [] => []
  | .word :: ks => .word (BitVec.ofNat 32 bits) :: tableOperands (bits / 2 ^ 32) ks
  | .quantity :: ks => .ofRat 0 :: tableOperands (bits / 2 ^ 32) ks

/-- The command whose bits are the low `nbits` bits of `w`, as items of the command port. -/
def tableTokens (nbits w : Nat) : List Token :=
  let bits := w % 2 ^ nbits
  let h : Word := BitVec.ofNat 32 bits
  match decodeHeader h with
  | none => [.word h]
  | some hd => .word h :: tableOperands (bits / 2 ^ 32) hd.operandKinds

/-- What the decoder reads from the command whose bits are `w`; `none` where it refuses or faults. -/
def decodeTableWord (nbits w : Nat) : Option Instr :=
  match decode (tableTokens nbits w) with
  | .ok i _ => some i
  | .illegal _ => none
  | .incomplete => none
  | .refused _ => none

/-! ### Pseudo-instructions (R72) and assembler text (R71) -/

/-- `WRITE_SUBFIELD a, hi, lo, v, u` (R72, for 31 ≥ hi ≥ lo ≥ 0). -/
def pseudoWriteSubfield (a hi lo : Nat) (v : Word) (u : Bool) : Instr :=
  .rmwField a u lo (BitVec.ofNat 32 ((2 ^ (hi - lo + 1) - 1) * 2 ^ lo)) v

/-- `APPLY_WRITE a, V` (R72). -/
def pseudoApplyWrite (a : Nat) (v : Word) : Instr := .setField a true v

/-- A bit operand as text. -/
def asmBit (b : Bool) : String := if b then "1" else "0"

/-- A word operand as text, in decimal (R71). -/
def asmWord (w : Word) : String := toString w.toNat

/-- A quantity operand as text: decimal, or an exact fraction (R71). -/
def asmRat (q : Rat) : String :=
  if q.den = 1 then toString q.num else toString q.num ++ "/" ++ toString q.den

/-- A ramp type's name (R66, R71). DESIGN CHOICE (notes/assumptions/21.md): R71 spells AMP, FREQ and PHASE only; the text
`NONE` for type none is the model's. -/
def asmRampType : RampType → String
  | .none => "NONE"
  | .amp => "AMP"
  | .freq => "FREQ"
  | .phase => "PHASE"

/-- The assembler line of a command, in the operand order of R71. -/
def Instr.asm : Instr → String
  | .encFreq x => "ENC_FREQ " ++ asmRat x
  | .encPhase x => "ENC_PHASE " ++ asmRat x
  | .encAmp x => "ENC_AMP " ++ asmRat x
  | .setChen e0 e1 => "SET_CHEN " ++ asmBit e0 ++ ", " ++ asmBit e1
  | .setField a u v => "SET_FIELD " ++ toString a ++ ", " ++ asmWord v ++ ", " ++ asmBit u
  | .readCur a => "READ_CUR " ++ toString a
  | .readBank c a => "READ_BANK " ++ toString c.code ++ ", " ++ toString a
  | .rmwField a u sh m v =>
    "RMW_FIELD " ++ toString a ++ ", " ++ asmWord m ++ ", " ++ toString sh ++ ", " ++ asmWord v ++ ", " ++ asmBit u
  | .rampOpt t s0 e0 tr tf =>
    "RAMP_OPT " ++ asmRampType t ++ ", " ++ asmRat s0 ++ ", " ++ asmRat e0 ++ ", " ++ asmRat tr ++ ", " ++ asmRat tf

end Sys2Proof
end

