-- ==== Sys2Proof/Machine/State.lean ====
section
/-!
DEFINITION. The state of the TWE: the architectural record of 10_state.md R20, the block's parameters (00_scope.md
R8) and its five ports (30_encoding.md R55); the reasons a command or a step can stop; the state after reset.
-/
namespace Sys2Proof.Machine

/-- The configuration of R21, in Hz (`pllMult` has no unit). -/
structure ClockConfig where
  refClk : Rat
  pllMult : Rat
  sysClk : Rat
  syncClk : Rat
deriving DecidableEq, Repr

/-- The static input port `cfg` of R55: what a reset samples. -/
structure ClockPort where
  refClk : Rat
  pllMult : Rat
deriving DecidableEq, Repr

/-- A RegisterBank (R22): 25 words, word `a` at address `a`. -/
abbrev Bank := Vector Word 25

/-- The parameters R8 leaves open, as the block is built. They are held in the state so that a statement over every
state is a statement over every value of them; no step changes them (notes/assumptions/4.md). -/
structure Params where
  /-- `NUMERIC`, R12 -/
  numeric : Numeric
  /-- `FOM`, R141 and 92_eei_decisions.md D7 -/
  fom : FomForm
  /-- `BANK_RESET[0]`, R31 -/
  bankReset0 : Bank
  /-- `BANK_RESET[1]`, R31 -/
  bankReset1 : Bank
  /-- `CHEN_RESET[0]`, R32 -/
  chenReset0 : Bool
  /-- `CHEN_RESET[1]`, R32 -/
  chenReset1 : Bool
deriving DecidableEq, Repr

/-- The status of a response (R61). Codes 0x6 .. 0xF are never produced. -/
inductive Status where
  | ok
  | illegalOp
  | addrRange
  | badRampType
  | rampRiseNone
  | rampFallNone
deriving DecidableEq, Repr

/-- The result data of a response (R61, R67, R70). -/
inductive Data where
  /-- no data: SET_CHEN, SET_FIELD, RMW_FIELD, and every fault -/
  | none
  /-- a `Word32`: ENC_FREQ, READ_CUR, READ_BANK -/
  | word (w : Word)
  /-- a `Word14`: ENC_PHASE -/
  | word14 (w : BitVec 14)
  /-- a `Word10`: ENC_AMP -/
  | word10 (w : BitVec 10)
  /-- the RampResult `(RD, RDW, FD, FDW)`: RAMP_OPT -/
  | ramp (rd : BitVec 8) (rdw : Word) (fd : BitVec 8) (fdw : Word)
deriving DecidableEq, Repr

/-- A response `(STATUS, DATA)` (R61). -/
structure Response where
  status : Status
  data : Data
deriving DecidableEq, Repr

/-- A write event `WR_EVT(a, v, u)` (R60). -/
structure WrEvt where
  a : Addr
  v : Word
  u : Bool
deriving DecidableEq, Repr

/-- The state. `cfg`, `bank0`, `bank1`, `chen0`, `chen1` are the record of R20; `par` are the parameters of R8; the
rest are the ports of R55, inputs as what waits on them and outputs as what has left by them, oldest first. -/
structure State where
  /-- R8: fixed when the block is built -/
  par : Params
  /-- R21 -/
  cfg : ClockConfig
  /-- `bank[0]`, R22 -/
  bank0 : Bank
  /-- `bank[1]`, R22 -/
  bank1 : Bank
  /-- `chen[0]`, R24 -/
  chen0 : Bool
  /-- `chen[1]`, R24 -/
  chen1 : Bool
  /-- port `cfg` (R55): the clocks presented to the block -/
  cfgPort : ClockPort
  /-- port `rst` (R55, R190): a reset is requested -/
  rst : Bool
  /-- port `cmd` (R55): the items that wait, the next one first -/
  cmd : List Token
  /-- port `resp` (R55, R61): the responses given, oldest first -/
  resp : List Response
  /-- port `wev` (R55, R60): the write events emitted, oldest first (R52) -/
  wev : List WrEvt
deriving DecidableEq, Repr

/-- The fault outcomes of a command (R170, R171). A meaning answers one of them for a command the block refuses;
`step` then gives the fault response and the block goes on, as R171 says. Safe: no state is changed. -/
inductive Fault where
  /-- R172: a reserved opcode or a nonzero reserved bit. Raised by the decoder (`step`), never by a meaning. Safe. -/
  | illegalOp
  /-- R173: an address field 25 .. 31. Raised by SET_FIELD, READ_CUR, READ_BANK, RMW_FIELD. Safe. -/
  | addrRange
  /-- R174: RAMP_OPT with type `none`. Safe. -/
  | badRampType
deriving DecidableEq, Repr

/-- Why a step has no meaning. -/
inductive Refusal where
  /-- an instruction without a meaning, by its mnemonic. Raised by no arm of this model. Safe. -/
  | notModelled (mnemonic : String)
  /-- the command port carries an item that cannot be presented there (R65, R94, 93_implementation_defined.md U4).
  Raised by `step`. Safe. -/
  | port (e : PortError)
  /-- a reset with clocks that are not positive: "the block has no defined state after it" (R192,
  93_implementation_defined.md U16). Raised by `step`. Safe. -/
  | notConstructible
deriving DecidableEq, Repr

/-- The parameters of `State.reset`: the defaults of R12 and R141, and the values named in
notes/assumptions/2.md and 3.md. -/
def Params.default : Params where
  numeric := .exact
  fom := .integral
  bankReset0 := Vector.replicate 25 Config.bankResetWord
  bankReset1 := Vector.replicate 25 Config.bankResetWord
  chenReset0 := Config.chenReset
  chenReset1 := Config.chenReset

/-- The machine right after reset (R190, R194): `cfg` from the clocks of notes/assumptions/1.md, the banks and enables
from the parameters, nothing waiting on the command port and nothing yet on the output ports. -/
def State.reset : State where
  par := Params.default
  cfg := ⟨Config.refClk, Config.pllMult, 500000000, 125000000⟩
  bank0 := Params.default.bankReset0
  bank1 := Params.default.bankReset1
  chen0 := Params.default.chenReset0
  chen1 := Params.default.chenReset1
  cfgPort := ⟨Config.refClk, Config.pllMult⟩
  rst := false
  cmd := []
  resp := []
  wev := []

end Sys2Proof.Machine
end

