-- ==== Sys2Proof/Machine/Flags.lean ====
section
/-!
DEFINITION. The block has no flags and no condition codes (10_state.md R37): a command's outcome is carried only in
its response status. This file holds the status codes (30_encoding.md R61, 60_exceptions.md R189).
-/
namespace Sys2Proof.Machine

/-- The 4-bit code of a status (R61). -/
def Status.code : Status → BitVec 4
  | .ok => 0x0
  | .illegalOp => 0x1
  | .addrRange => 0x2
  | .badRampType => 0x3
  | .rampRiseNone => 0x4
  | .rampFallNone => 0x5

/-- The statuses that are faults (R170): the block refused the command. The infeasible ramps are results (R175). -/
def Status.isFault : Status → Bool
  | .ok => false
  | .illegalOp => true
  | .addrRange => true
  | .badRampType => true
  | .rampRiseNone => false
  | .rampFallNone => false

/-- The status a fault is reported with (R172 to R174). -/
def Fault.status : Fault → Status
  | .illegalOp => .illegalOp
  | .addrRange => .addrRange
  | .badRampType => .badRampType

end Sys2Proof.Machine
end

