-- ==== Sys2Proof/Machine/Operands.lean ====
section
/-!
DEFINITION. The integer primitives of 00_scope.md R11 and the arithmetic on physical-unit values of R12: exact on
rationals under `NUMERIC = exact`, IEEE 754 binary64 (93_implementation_defined.md G1) under `NUMERIC = binary64`.
Every operation is written once and takes the arithmetic as an argument.
-/
namespace Sys2Proof.Machine

/-! ### Integer primitives (R11) -/

/-- `trunc(x)`: the integer part, rounding toward zero. -/
def truncRat (q : Rat) : Int := Int.tdiv q.num q.den

/-- `wrap_N(x) = x mod 2^N`. -/
def wrap (n : Nat) (z : Int) : BitVec n := BitVec.ofInt n z

/-- `sat_32(x) = min(max(x, 0), 2^32 − 1)`. -/
def sat32 (z : Int) : Word := BitVec.ofInt 32 (min (max z 0) (2 ^ 32 - 1))

/-- `floor_to(x, g) = g × floor(x / g)`, for `g > 0` (Lean's `/` on `Int` is the floor for a positive divisor). -/
def floorTo (x g : Int) : Int := g * (x / g)

/-! ### Rounding a rational to binary64, to nearest with ties to even (G1) -/

/-- The integer nearest to `num / den`, the even one of two equally near. -/
def roundEven (num den : Nat) : Nat :=
  if 2 * (num % den) < den then num / den
  else if den < 2 * (num % den) then num / den + 1
  else if (num / den) % 2 = 0 then num / den
  else num / den + 1

/-- `2^e ≤ num / den`. -/
def twoPowLe (num den : Nat) (e : Int) : Bool := den * 2 ^ e.toNat ≤ num * 2 ^ (-e).toNat

/-- The exponent `e` with `2^e ≤ num / den < 2^(e+1)`, for `num > 0`. -/
def floorLog2 (num den : Nat) : Int :=
  let e : Int := (Nat.log2 num : Int) - (Nat.log2 den : Int)
  if twoPowLe num den e then e else e - 1

/-- The exponent of the last place of the binary64 numbers about `num / den`: 52 places below the leading bit, and
never below `2^-1074`, the last place of the subnormal numbers. -/
def lastPlace (num den : Nat) : Int := max (floorLog2 num den) (-1022) - 52

/-- `num / den` in units of `2^u`, to the nearest unit, ties to even. -/
def unitsOf (num den : Nat) (u : Int) : Nat := roundEven (num * 2 ^ (-u).toNat) (den * 2 ^ u.toNat)

/-- `k × 2^u`. -/
def ofUnits (k : Nat) (u : Int) : Rat := (k : Rat) * 2 ^ u.toNat / 2 ^ (-u).toNat

/-- The magnitude of `q` rounded to binary64's precision, before the range is looked at. -/
def roundMagnitude (q : Rat) : Rat :=
  ofUnits (unitsOf q.num.natAbs q.den (lastPlace q.num.natAbs q.den)) (lastPlace q.num.natAbs q.den)

/-- `q` rounded to binary64: infinite where the rounded magnitude reaches `2^1024`. -/
def round64 (q : Rat) : Quantity :=
  if 2 ^ 1024 ≤ roundMagnitude q then .inf (decide (q < 0))
  else .fin (if q < 0 then -roundMagnitude q else roundMagnitude q)

/-! ### Arithmetic on quantities (R12) -/

/-- The value of an exact rational in the arithmetic `n`: itself, or rounded to binary64. -/
def rnd (n : Numeric) (q : Rat) : Quantity :=
  match n with
  | .exact => .fin q
  | .binary64 => round64 q

/-- An integer where a rule uses it as a `Q` (notes/assumptions/12.md). -/
def ofInt (n : Numeric) (z : Int) : Quantity := rnd n (z : Rat)

/-- The negative. -/
def neg : Quantity → Quantity
  | .fin a => .fin (-a)
  | .inf s => .inf (!s)
  | .nan => .nan

/-- Sum. -/
def add (n : Numeric) : Quantity → Quantity → Quantity
  | .fin a, .fin b => rnd n (a + b)
  | .fin _, .inf t => .inf t
  | .inf s, .fin _ => .inf s
  | .inf s, .inf t => if s = t then .inf s else .nan
  | .nan, _ => .nan
  | _, .nan => .nan

/-- Difference. -/
def sub (n : Numeric) (x y : Quantity) : Quantity := add n x (neg y)

/-- Product. -/
def mul (n : Numeric) : Quantity → Quantity → Quantity
  | .fin a, .fin b => rnd n (a * b)
  | .fin a, .inf t => if a = 0 then .nan else .inf (xor (decide (a < 0)) t)
  | .inf s, .fin b => if b = 0 then .nan else .inf (xor s (decide (b < 0)))
  | .inf s, .inf t => .inf (xor s t)
  | .nan, _ => .nan
  | _, .nan => .nan

/-- Quotient. No rule divides by zero when the clocks are positive (R83, R135, R138), nor does any divisor underflow
to a negative zero; a zero divisor gives what IEEE 754 gives for a positive zero. -/
def div (n : Numeric) : Quantity → Quantity → Quantity
  | .fin a, .fin b => if b = 0 then (if a = 0 then .nan else .inf (decide (a < 0))) else rnd n (a / b)
  | .fin _, .inf _ => .fin 0
  | .inf s, .fin b => .inf (xor s (decide (b < 0)))
  | .inf _, .inf _ => .nan
  | .nan, _ => .nan
  | _, .nan => .nan

/-- `x < y`; false of anything not a number. -/
def lt : Quantity → Quantity → Bool
  | .fin a, .fin b => decide (a < b)
  | .fin _, .inf t => !t
  | .inf s, .fin _ => s
  | .inf s, .inf t => s && !t
  | .nan, _ => false
  | _, .nan => false

/-- `x ≤ y`; false of anything not a number. -/
def le : Quantity → Quantity → Bool
  | .fin a, .fin b => decide (a ≤ b)
  | .fin _, .inf t => !t
  | .inf s, .fin _ => s
  | .inf s, .inf t => s || !t
  | .nan, _ => false
  | _, .nan => false

/-- The integer part `p` of a quantity (R11); a free integer where the quantity is not finite
(notes/assumptions/9.md). -/
def intPart (p : IntPart) (x : Quantity) : Int :=
  match x with
  | .fin q =>
    match p with
    | .trunc => truncRat q
    | .floor => ⌊q⌋
    | .ceil => ⌈q⌉
  | .inf s => Config.nonFiniteInt p (.inf s)
  | .nan => Config.nonFiniteInt p .nan

/-- `trunc` of R11 on a quantity. -/
def trunc (x : Quantity) : Int := intPart .trunc x

/-- `floor` of R11 on a quantity. -/
def floor (x : Quantity) : Int := intPart .floor x

/-- `ceil` of R11 on a quantity. -/
def ceil (x : Quantity) : Int := intPart .ceil x

/-- `x · y₁ · y₂ · …`, in the order written. -/
def prod (n : Numeric) (x : Quantity) (ys : List Quantity) : Quantity := ys.foldl (mul n) x

/-- `x²`. -/
def sq (n : Numeric) (x : Quantity) : Quantity := mul n x x

/-- `x³`, as `(x · x) · x`. -/
def cube (n : Numeric) (x : Quantity) : Quantity := mul n (sq n x) x

end Sys2Proof.Machine
end

