-- ==== Sys2Proof/Machine/Ops.lean ====
section
/-!
DEFINITION. The named operations over the register banks, the output ports and the configuration, each written once:
reading a word, the merged current view (10_state.md R26), writing a register (41_register_shadow.md R102, R103),
emitting an event (R107), responding (30_encoding.md R61), the address check (20_memory.md R43), taking a fault
(60_exceptions.md R171) and reset (70_reset_and_hazards.md R190).
-/
namespace Sys2Proof.Machine

/-- `bank[c]` (R22). -/
def State.bank (s : State) (c : Channel) : Bank :=
  match c with
  | .ch0 => s.bank0
  | .ch1 => s.bank1

/-- `chen[c]` (R24). -/
def State.enabled (s : State) (c : Channel) : Bool :=
  match c with
  | .ch0 => s.chen0
  | .ch1 => s.chen1

/-- `bank[c][a]` (R13). -/
def State.word (s : State) (c : Channel) (a : Addr) : Word := (s.bank c)[a.val]'a.isLt

/-- The merged current view of R26: the OR of the enabled banks' words, 0 with no channel enabled. -/
def State.cur (s : State) (a : Addr) : Word :=
  (if s.enabled .ch0 then s.word .ch0 a else 0) ||| (if s.enabled .ch1 then s.word .ch1 a else 0)

/-- The shared addresses {0, 1, 2} (R7, R41). -/
def isShared (a : Addr) : Bool := a.val < 3

/-- A write at `a` reaches the bank of channel `c` (R102, R103). -/
def State.targets (s : State) (c : Channel) (a : Addr) : Bool := isShared a || s.enabled c

/-- The bank of channel `c` after a write of `w` at `a`. -/
def State.bankAfterWrite (s : State) (c : Channel) (a : Addr) (w : Word) : Bank :=
  if s.targets c a then (s.bank c).set a.val w a.isLt else s.bank c

/-- Write `w` at address `a` into the targeted banks (R102, R103). -/
def State.writeReg (s : State) (a : Addr) (w : Word) : State :=
  { s with bank0 := s.bankAfterWrite .ch0 a w, bank1 := s.bankAfterWrite .ch1 a w }

/-- `chen[0] <- e0; chen[1] <- e1` (R101). -/
def State.setChen (s : State) (e0 e1 : Bool) : State := { s with chen0 := e0, chen1 := e1 }

/-- `emit WR_EVT(a, v, u)` (R13, R60). -/
def State.emit (s : State) (a : Addr) (v : Word) (u : Bool) : State := { s with wev := s.wev ++ [⟨a, v, u⟩] }

/-- `respond(status, data)` (R13, R61). -/
def State.respond (s : State) (st : Status) (d : Data) : State := { s with resp := s.resp ++ [⟨st, d⟩] }

/-- The address check of R43 and R100: `ADDR_RANGE` unless `a` is in 0 .. 24. -/
def withAddr (a : Nat) (k : Addr → Host.Outcome State Fault Refusal) : Host.Outcome State Fault Refusal :=
  if h : a < 25 then k ⟨a, h⟩ else .fault .addrRange

/-- The field merge of R109, `(m AND NOT M) OR wrap_32(V << s)`. -/
def merge (cur m : Word) (sh : Nat) (v : Word) : Word := (cur &&& ~~~m) ||| (v <<< sh)

/-- The write of SET_FIELD and RMW_FIELD (R102, R110): the targeted banks, one event, the response. -/
def State.shadowWrite (s : State) (a : Addr) (w : Word) (u : Bool) : State :=
  ((s.writeReg a w).emit a w u).respond .ok .none

/-- Taking a fault (R171): the response is the code with no data; nothing else changes, and the block is ready for
the next command. The block has no trap (R179), so this is all there is to a fault, and nothing to return from (R180). -/
def State.takeFault (s : State) (f : Fault) : State := s.respond f.status .none

/-- What the block does with a command's outcome: a fault is answered on the response port and the block continues
(R170, R171). `s` is the state in which the command ran, which a fault leaves unchanged. -/
def deliver (s : State) (o : Host.Outcome State Fault Refusal) : Host.Outcome State Fault Refusal :=
  match o with
  | .next t => .next t
  | .fault f => .next (s.takeFault f)
  | .refused r => .refused r

/-- The configuration of R190 from the clocks presented: `SYS_CLK = REF_CLK × PLL_MULT`, `SYNC_CLK = SYS_CLK / 4`, in
the block's arithmetic; `none` where a clock is not a positive number (R6, R192). -/
def clockConfig (n : Numeric) (p : ClockPort) : Option ClockConfig :=
  match rnd n p.refClk, rnd n p.pllMult with
  | .fin r, .fin m =>
    match mul n (.fin r) (.fin m) with
    | .fin sys =>
      match div n (.fin sys) (.fin 4) with
      | .fin sync => if 0 < r ∧ 0 < m ∧ 0 < sys ∧ 0 < sync then some ⟨r, m, sys, sync⟩ else none
      | _ => none
    | _ => none
  | _, _ => none

/-- The state R190 loads, once the configuration is known: `BANK_RESET` and `CHEN_RESET`, no response, no event, the
request taken. -/
def State.loadReset (s : State) (c : ClockConfig) : State :=
  { s with
    cfg := c
    bank0 := s.par.bankReset0
    bank1 := s.par.bankReset1
    chen0 := s.par.chenReset0
    chen1 := s.par.chenReset1
    rst := false }

/-- RESET of R190; refused with clocks that are not positive (R192). -/
def acceptReset (s : State) : Host.Outcome State Fault Refusal :=
  match clockConfig s.par.numeric s.cfgPort with
  | some c => .next (s.loadReset c)
  | none => .refused .notConstructible

end Sys2Proof.Machine
end

