-- ==== Sys2Proof/Machine/Encoder.lean ====
section
/-!
DEFINITION. The fixed-point encoder commands (40_encoder.md): ENC_FREQ, ENC_PHASE, ENC_AMP. Each truncates toward
zero and keeps the low N bits (R90, R91), for every rational operand.
-/
namespace Sys2Proof.Machine

/-- The scaled frequency `X / SYS_CLK × 2^32` (R81, in the order of R94). -/
def scaledFreq (n : Numeric) (sysClk x : Rat) : Quantity :=
  mul n (div n (rnd n x) (.fin sysClk)) (.fin (2 ^ 32))

/-- The scaled phase `X / 360 × 2^14` (R84, in the order of R94). -/
def scaledPhase (n : Numeric) (x : Rat) : Quantity := mul n (div n (rnd n x) (.fin 360)) (.fin (2 ^ 14))

/-- The scaled amplitude `X × (2^10 − 1)` (R87, R94). -/
def scaledAmp (n : Numeric) (x : Rat) : Quantity := mul n (rnd n x) (.fin (2 ^ 10 - 1))

/-- ENC_FREQ X (R81). -/
def execEncFreq (x : Rat) (s : State) : Host.Outcome State Fault Refusal :=
  .next (s.respond .ok (.word (wrap 32 (trunc (scaledFreq s.par.numeric s.cfg.sysClk x)))))

/-- ENC_PHASE X (R84). -/
def execEncPhase (x : Rat) (s : State) : Host.Outcome State Fault Refusal :=
  .next (s.respond .ok (.word14 (wrap 14 (trunc (scaledPhase s.par.numeric x)))))

/-- ENC_AMP X (R87). -/
def execEncAmp (x : Rat) (s : State) : Host.Outcome State Fault Refusal :=
  .next (s.respond .ok (.word10 (wrap 10 (trunc (scaledAmp s.par.numeric x)))))

end Sys2Proof.Machine
end

