-- ==== Sys2Proof/Machine/Ramp.lean ====
section
/-!
DEFINITION. The ramp parameter optimizer (42_ramp_optimizer.md): RAMP_OPT. The search takes any figure-of-merit
function (00_scope.md R8, R143); `fomOf` gives the block's own (R141, R142, or the one supplied).
-/
namespace Sys2Proof.Machine

/-- A figure of merit: `FOM(D, T, tau, dw, nFull)` (R134, R141). -/
abbrev Fom := Quantity → Quantity → Quantity → Int → Int → Quantity

/-- A surviving candidate `(d, dw, J)` of R134. -/
structure Candidate where
  d : Nat
  dw : Int
  j : Quantity
deriving DecidableEq, Repr

/-- The closed form of R142 for a given number `m` of steps taken, term by term in the order written. -/
def fomClosed (n : Numeric) (D T tau : Quantity) (dw m : Int) : Quantity :=
  let sigma := div n D T
  let mq := ofInt n m
  let l := sub n T (mul n mq tau)
  let e := sub n (mul n sigma tau) (ofInt n dw)
  let t1 := div n (prod n (sq n e) [tau, mq, ofInt n (m - 1), ofInt n (2 * m - 1)]) (.fin 6)
  let t2 := div n (prod n e [sigma, sq n tau, mq, ofInt n (m - 1)]) (.fin 2)
  let t3 := div n (prod n mq [sq n sigma, cube n tau]) (.fin 3)
  let t4 := prod n (sq n mq) [sq n e, l]
  let t5 := prod n mq [e, sigma, sq n l]
  let t6 := div n (mul n (sq n sigma) (cube n l)) (.fin 3)
  add n (add n (add n (add n (add n t1 t2) t3) t4) t5) t6

/-- The number `m` of steps that the integral of R141 counts, clipped at `T` (R142). -/
def clippedSteps (n : Numeric) (T tau : Quantity) (nFull : Int) : Int := min nFull (floor (div n T tau))

/-- A figure of merit on rationals as the search takes it. -/
def liftFom (f : Rat → Rat → Rat → Int → Int → Rat) : Fom
  | .fin D, .fin T, .fin tau, dw, nFull => .fin (f D T tau dw nFull)
  | _, _, _, _, _ => .nan

/-- The supplied figure of merit `k`, in the block's arithmetic (R8; notes/assumptions/22.md). -/
def givenFom (k : Nat) : Numeric → Fom
  | .exact => liftFom (Config.fomExact k)
  | .binary64 => Config.fomBinary64 k

/-- The block's figure of merit (R8, R141, R142; D7). -/
def fomOf (f : FomForm) (n : Numeric) : Fom := fun D T tau dw nFull =>
  match f with
  | .integral => fomClosed n D T tau dw (clippedSteps n T tau nFull)
  | .signedTail => fomClosed n D T tau dw nFull
  | .given k => givenFom k n D T tau dw nFull

/-- The time step `tau = d / SYNC_CLK` of a rate divider (R131, R135). -/
def timeStep (n : Numeric) (syncClk : Rat) (d : Nat) : Quantity := div n (.fin (d : Rat)) (.fin syncClk)

/-- `steps = ceil(T / tau)` (R135). -/
def stepCount (n : Numeric) (T tau : Quantity) : Int := ceil (div n T tau)

/-- `dw = floor_to(ceil(D / steps), 2^s)` (R136). -/
def deltaWord (n : Numeric) (D : Quantity) (steps : Int) (sh : Nat) : Int :=
  floorTo (ceil (div n D (ofInt n steps))) (2 ^ sh)

/-- The overflow guard of R139 rejects: `dw × nFullCeil + S0s ≥ 2^32`. -/
def overflows (n : Numeric) (D S0s : Quantity) (dw : Int) : Bool :=
  le (.fin (2 ^ 32)) (add n (ofInt n (dw * ceil (div n D (ofInt n dw)))) S0s)

/-- One turn of the loop of R134 for the divider `d`: the candidate, or none where it is skipped (R135, R137) or, on the
rising leg only (R140), rejected (R139). -/
def candidate (n : Numeric) (fom : Fom) (syncClk : Rat) (D S0s T : Quantity) (sh : Nat) (rising : Bool) (d : Nat) :
    Option Candidate :=
  let tau := timeStep n syncClk d
  let steps := stepCount n T tau
  let dw := deltaWord n D steps sh
  if steps ≤ 0 then none
  else if dw ≤ 0 then none
  else if rising && overflows n D S0s dw then none
  else some ⟨d, dw, fom D T tau dw (floor (div n D (ofInt n dw)))⟩

/-- `if best = NONE or J < best.J then best := …` (R134, R143): strict, so the first of equals stays. -/
def better (best new : Option Candidate) : Option Candidate :=
  match best, new with
  | none, c => c
  | some b, none => some b
  | some b, some c => if lt c.j b.j then some c else some b

/-- The rate dividers examined, ascending (R134, R163). -/
def dividers : List Nat := List.range' 1 255

/-- The best of the candidates of a list of dividers, in the list's order. -/
def bestOf (cand : Nat → Option Candidate) (ds : List Nat) : Option Candidate :=
  ds.foldl (fun best d => better best (cand d)) none

/-- The leg search of R134. -/
def leg (n : Numeric) (fom : Fom) (syncClk : Rat) (D S0s T : Quantity) (sh : Nat) (rising : Bool) : Option Candidate :=
  bestOf (candidate n fom syncClk D S0s T sh rising) dividers

/-- The sub-field shift `s_T` of a ramp type (R66). -/
def rampShift : RampType → Nat
  | .none => 0
  | .amp => 22
  | .freq => 0
  | .phase => 18

/-- The scale `K_T` of a ramp type (R66, R132), computed in the order written. Type `none` has none: it faults first. -/
def rampScale (n : Numeric) (sysClk : Rat) : RampType → Quantity
  | .none => .fin 0
  | .amp => mul n (.fin (2 ^ 10 - 1)) (.fin (2 ^ 22))
  | .freq => div n (.fin (2 ^ 32)) (.fin sysClk)
  | .phase => mul n (div n (.fin (2 ^ 14)) (.fin 360)) (.fin (2 ^ 18))

/-- A scaled endpoint (R132): not truncated, not wrapped. -/
def scaledEnd (n : Numeric) (sysClk : Rat) (t : RampType) (x : Rat) : Quantity :=
  mul n (rnd n x) (rampScale n sysClk t)

/-- An all-zero RampResult (R146, R147). -/
def zeroRamp : Data := .ramp 0 0 0 0

/-- The RampResult of two legs: dividers, and delta words saturated to 32 bits (R70, R148). -/
def rampData (r f : Candidate) : Data :=
  .ramp (BitVec.ofNat 8 r.d) (sat32 r.dw) (BitVec.ofNat 8 f.d) (sat32 f.dw)

/-- The response to the two legs (R145 to R148): the rising leg is looked at first. -/
def rampResponse (rise fall : Option Candidate) : Response :=
  match rise with
  | none => ⟨.rampRiseNone, zeroRamp⟩
  | some r =>
    match fall with
    | none => ⟨.rampFallNone, zeroRamp⟩
    | some f => ⟨.ok, rampData r f⟩

/-- The pseudocode of R130 after the type check, for any figure of merit. -/
def optimize (n : Numeric) (fom : Fom) (cfg : ClockConfig) (t : RampType) (s0 e0 tr tf : Rat) : Response :=
  let S0s := scaledEnd n cfg.sysClk t s0
  let E0s := scaledEnd n cfg.sysClk t e0
  let D := sub n E0s S0s
  rampResponse (leg n fom cfg.syncClk D S0s (rnd n tr) (rampShift t) true)
    (leg n fom cfg.syncClk D S0s (rnd n tf) (rampShift t) false)

/-- RAMP_OPT type, S0, E0, TR, TF (R130): writes nothing and emits nothing (R149). -/
def execRampOpt (t : RampType) (s0 e0 tr tf : Rat) (s : State) : Host.Outcome State Fault Refusal :=
  if t = .none then .fault .badRampType
  else
    let r := optimize s.par.numeric (fomOf s.par.fom s.par.numeric) s.cfg t s0 e0 tr tf
    .next (s.respond r.status r.data)

end Sys2Proof.Machine
end

