-- ==== Sys2Proof/Machine/Shadow.lean ====
section
/-!
DEFINITION. The register shadow commands (41_register_shadow.md): SET_CHEN, SET_FIELD, READ_CUR, READ_BANK, RMW_FIELD.
-/
namespace Sys2Proof.Machine

/-- SET_CHEN e0, e1 (R101). -/
def execSetChen (e0 e1 : Bool) (s : State) : Host.Outcome State Fault Refusal :=
  .next ((s.setChen e0 e1).respond .ok .none)

/-- SET_FIELD a, V, u (R102): `V` is written whole. -/
def execSetField (a : Nat) (u : Bool) (v : Word) (s : State) : Host.Outcome State Fault Refusal :=
  withAddr a fun a => .next (s.shadowWrite a v u)

/-- READ_CUR a (R105). -/
def execReadCur (a : Nat) (s : State) : Host.Outcome State Fault Refusal :=
  withAddr a fun a => .next (s.respond .ok (.word (s.cur a)))

/-- READ_BANK c, a (R108). -/
def execReadBank (c : Channel) (a : Nat) (s : State) : Host.Outcome State Fault Refusal :=
  withAddr a fun a => .next (s.respond .ok (.word (s.word c a)))

/-- RMW_FIELD a, M, s, V, u (R110): SET_FIELD's write of the merged word. -/
def execRmwField (a : Nat) (u : Bool) (sh : Nat) (m v : Word) (s : State) : Host.Outcome State Fault Refusal :=
  withAddr a fun a => .next (s.shadowWrite a (merge (s.cur a) m sh v) u)

end Sys2Proof.Machine
end

