-- ==== Sys2Proof/Machine/Dispatch.lean ====
section
/-! DEFINITION. The meaning of each command (30_encoding.md R62): one arm per constructor of `Instr`. -/
namespace Sys2Proof.Machine

def exec (i : Instr) (s : State) : Host.Outcome State Fault Refusal :=
  match i with
  | .encFreq x => Sys2Proof.Machine.execEncFreq x s
  | .encPhase x => Sys2Proof.Machine.execEncPhase x s
  | .encAmp x => Sys2Proof.Machine.execEncAmp x s
  | .setChen e0 e1 => Sys2Proof.Machine.execSetChen e0 e1 s
  | .setField a u v => Sys2Proof.Machine.execSetField a u v s
  | .readCur a => Sys2Proof.Machine.execReadCur a s
  | .readBank c a => Sys2Proof.Machine.execReadBank c a s
  | .rmwField a u sh m v => Sys2Proof.Machine.execRmwField a u sh m v s
  | .rampOpt t s0 e0 tr tf => Sys2Proof.Machine.execRampOpt t s0 e0 tr tf s

end Sys2Proof.Machine
end

