-- ==== Sys2Proof/Machine/Step.lean ====
section
/-!
DEFINITION. One step of the block: a requested reset (70_reset_and_hazards.md R190, R191), or one whole command from
the command port (30_encoding.md R79, 20_memory.md R48), or nothing where no whole command waits.
-/
namespace Sys2Proof.Machine

/-- One step. A requested reset comes first (notes/assumptions/5.md). Else the next command is read off the command
port and performed to completion; its fault, if any, is answered on the response port (R171). With no whole command
waiting the block holds its state (R188, R193). -/
def step (s : State) : Host.Outcome State Fault Refusal :=
  if s.rst then acceptReset s
  else
    match decode s.cmd with
    | .ok i rest => deliver { s with cmd := rest } (exec i { s with cmd := rest })
    | .illegal rest => deliver { s with cmd := rest } (.fault .illegalOp)
    | .incomplete => .next s
    | .refused e => .refused (.port e)

/-- The state with the command whose bits are `w` (numbered as spec/opcode_table.json numbers them, its operand words
0) put at the head of the command port, and no reset requested, so that the next step performs it. -/
def State.withFetchWord (s : State) (nbits w : Nat) : State :=
  { s with rst := false, cmd := tableTokens nbits w ++ s.cmd }

end Sys2Proof.Machine
end

