-- ==== Sys2Proof/Safety.lean ====
section
/-!
DEFINITION. What counts as a good state of the TWE: the shared-address invariant (10_state.md R23), the constraint on
`BANK_RESET` (R31), and the relation of the clocks (00_scope.md R6); and the states the block can be in (R20, R190).
-/
namespace Sys2Proof.Machine

/-- Two banks agree at the shared addresses 0, 1, 2 (R23). -/
abbrev SharedEqual (b0 b1 : Bank) : Prop := ∀ a : Addr, isShared a = true → b0[a.val]'a.isLt = b1[a.val]'a.isLt

/-- The configuration is one that R190 can load: positive clocks (R6), `SYS_CLK = REF_CLK × PLL_MULT` and
`SYNC_CLK = SYS_CLK / 4` in the block's arithmetic. -/
abbrev ClockConfig.Good (n : Numeric) (c : ClockConfig) : Prop :=
  0 < c.refClk ∧ 0 < c.pllMult ∧ 0 < c.sysClk ∧ 0 < c.syncClk ∧
    mul n (.fin c.refClk) (.fin c.pllMult) = .fin c.sysClk ∧ div n (.fin c.sysClk) (.fin 4) = .fin c.syncClk

/-- The parameters are legal: `BANK_RESET` is equal in both banks at the shared addresses (R31). -/
abbrev Params.Good (p : Params) : Prop := SharedEqual p.bankReset0 p.bankReset1

/-- The invariant of the block. -/
abbrev State.Inv (s : State) : Prop :=
  s.par.Good ∧ ClockConfig.Good s.par.numeric s.cfg ∧ SharedEqual s.bank0 s.bank1

/-- The outside world acts on the input ports only (R55): it presents clocks, requests a reset, and appends items to
the command port. -/
def State.present (s : State) (p : ClockPort) (rst : Bool) (items : List Token) : State :=
  { s with cfgPort := p, rst := rst, cmd := s.cmd ++ items }

/-- The block as constructed with parameters `p` and configuration `c` (R190: construction is the reset event). -/
def State.construct (p : Params) (c : ClockConfig) : State where
  par := p
  cfg := c
  bank0 := p.bankReset0
  bank1 := p.bankReset1
  chen0 := p.chenReset0
  chen1 := p.chenReset1
  cfgPort := ⟨c.refClk, c.pllMult⟩
  rst := false
  cmd := []
  resp := []
  wev := []

/-- The reachable states (R23): constructed with legal parameters and clocks, then any steps and any acts of the
outside world on the input ports. -/
inductive State.Reachable : State → Prop where
  | constructed (p : Params) (k : ClockPort) (c : ClockConfig) (hp : p.Good)
      (hc : clockConfig p.numeric k = some c) : State.Reachable (State.construct p c)
  | presented (s : State) (p : ClockPort) (rst : Bool) (items : List Token) (h : State.Reachable s) :
      State.Reachable (s.present p rst items)
  | stepped (s t : State) (h : State.Reachable s) (ht : step s = .next t) : State.Reachable t

/-! ### The reserved headers, from the format tables -/

/-- The reserved bits of each opcode's format (R57 to R59; the bits of `mask` in opcode_table.json below the opcode);
none for a reserved opcode (R63). -/
def reservedBits : Nat → Option Word
  | 0x1 => some 0x0FFFFFFF
  | 0x2 => some 0x0FFFFFFF
  | 0x3 => some 0x0FFFFFFF
  | 0x4 => some 0x0FFFFFFC
  | 0x5 => some 0x003FFFFF
  | 0x6 => some 0x007FFFFF
  | 0x7 => some 0x005FFFFF
  | 0x8 => some 0x003FFFE0
  | 0x9 => some 0x03FFFFFF
  | _ => none

/-- A header with a reserved opcode (R63) or a 1 in a reserved bit of its format (R64). -/
def IllegalHeader (h : Word) : Prop :=
  match reservedBits (h.toNat / 2 ^ 28) with
  | none => True
  | some r => h &&& r ≠ 0

/-! ### The rules' own arithmetic on exact rationals, in which the claims are stated -/

/-- `trunc` of R11: toward zero. -/
def Exact.trunc (y : Rat) : Int := if 0 ≤ y then ⌊y⌋ else ⌈y⌉

/-- The scale `K_T` of R66 and R132 (`2^14/360 × 2^18 = 2^32/360`); type `none` has none. -/
def Exact.scale (sysClk : Rat) : RampType → Rat
  | .none => 0
  | .amp => (2 ^ 10 - 1) * 2 ^ 22
  | .freq => 2 ^ 32 / sysClk
  | .phase => 2 ^ 32 / 360

/-- `steps = ceil(T × SYNC_CLK / d)` (R135, second form). -/
def Exact.steps (sync T : Rat) (d : Nat) : Int := ⌈T * sync / d⌉

/-- `dw = 2^s × floor(ceil(D / steps) / 2^s)` (R136, R11). -/
def Exact.deltaWord (sync D T : Rat) (sh d : Nat) : Int :=
  2 ^ sh * ⌊(⌈D / (Exact.steps sync T d : Rat)⌉ : Rat) / 2 ^ sh⌋

/-- The divider `d` is a candidate that no rule skips or rejects (R135, R137, R139; R140 for the falling leg). -/
def Exact.Survives (sync D S0s T : Rat) (sh : Nat) (rising : Bool) (d : Nat) : Prop :=
  1 ≤ d ∧ d ≤ 255 ∧ 0 < Exact.steps sync T d ∧ 0 < Exact.deltaWord sync D T sh d ∧
    (rising = true →
      (Exact.deltaWord sync D T sh d : Rat) * ⌈D / (Exact.deltaWord sync D T sh d : Rat)⌉ + S0s < 2 ^ 32)

/-- The figure of merit of the divider `d` for a rational-valued `fom` (R134, R138). -/
def Exact.merit (fom : Rat → Rat → Rat → Int → Int → Rat) (sync D T : Rat) (sh d : Nat) : Rat :=
  fom D T (d / sync) (Exact.deltaWord sync D T sh d) ⌊D / (Exact.deltaWord sync D T sh d : Rat)⌋

/-- The staircase of R141, over real time: `dw × min(floor(t / tau), nFull)`. -/
noncomputable def Exact.stair (tau : Rat) (dw nFull : Int) (t : ℝ) : ℝ := dw * min (⌊t / (tau : ℝ)⌋ : ℝ) nFull

/-- The integral of R141: `∫_0^T (sigma·t − stair(t))² dt` with `sigma = D / T`. -/
noncomputable def Exact.fomIntegral (D T tau : Rat) (dw nFull : Int) : ℝ :=
  ∫ t in (0 : ℝ)..(T : ℝ), ((D / T : ℝ) * t - Exact.stair tau dw nFull t) ^ 2

/-- The unclipped form of D7 (notes/assumptions/13.md): all `nFull` steps, each the integral of its squared deviation, and
a tail of signed length `T − nFull·tau`. -/
noncomputable def Exact.unclippedSum (D T tau : Rat) (dw nFull : Int) : ℝ :=
  ∑ k ∈ Finset.range nFull.toNat, (∫ x in (0 : ℝ)..tau, (k * (D / T * tau - dw : ℝ) + (D / T : ℝ) * x) ^ 2) +
    ∫ x in (0 : ℝ)..(T - nFull * tau : ℝ), (nFull * (D / T * tau - dw : ℝ) + (D / T : ℝ) * x) ^ 2

/-! ### The rules' arithmetic in the order written, each operation rounded to binary64 (R94, R161)

`none` where an intermediate value is not finite (or a divisor is 0), of which the claims say nothing. -/

/-- The value rounded to binary64, where that is finite (notes/assumptions/8.md). -/
def Rounded.value (q : Rat) : Option Rat :=
  match round64 q with
  | .fin v => some v
  | .inf _ => none
  | .nan => none

/-- The quotient rounded. -/
def Rounded.quot (a b : Rat) : Option Rat := if b = 0 then none else Rounded.value (a / b)

/-- The product of the terms from the left, each product rounded. -/
def Rounded.prod (x : Rat) : List Rat → Option Rat
  | [] => some x
  | y :: ys => (Rounded.value (x * y)).bind fun z => Rounded.prod z ys

/-- The sum of the terms from the left, each sum rounded. -/
def Rounded.sum (x : Rat) : List Rat → Option Rat
  | [] => some x
  | y :: ys => (Rounded.value (x + y)).bind fun z => Rounded.sum z ys

/-- The scale `K_T` of R66 in the order written. -/
def Rounded.scale (sysClk : Rat) : RampType → Option Rat
  | .none => none
  | .amp => Rounded.value ((2 ^ 10 - 1) * 2 ^ 22)
  | .freq => Rounded.quot (2 ^ 32) sysClk
  | .phase => (Rounded.quot (2 ^ 14) 360).bind fun p => Rounded.value (p * 2 ^ 18)

/-- The scaled low end `S0s` and the span `D` (R132, R133). -/
def Rounded.ends (sysClk : Rat) (t : RampType) (s0 e0 : Rat) : Option (Rat × Rat) := do
  let k ← Rounded.scale sysClk t
  let x ← Rounded.value s0
  let y ← Rounded.value e0
  let a ← Rounded.value (x * k)
  let b ← Rounded.value (y * k)
  let d ← Rounded.value (b - a)
  some (a, d)

/-- The guard's left side `dw × nFullCeil + S0s` (R139). -/
def Rounded.guard (D S0s : Rat) (dw : Int) : Option Rat := do
  let w ← Rounded.value dw
  let n ← Rounded.quot D w
  let g ← Rounded.value ((dw * ⌈n⌉ : Int) : Rat)
  Rounded.value (g + S0s)

/-- One turn of the loop of R134: nothing known, or skipped or rejected, or `(tau, dw, nFull)`. -/
def Rounded.turn (sync D S0s T : Rat) (sh : Nat) (rising : Bool) (d : Nat) : Option (Option (Rat × Int × Int)) := do
  let tau ← Rounded.quot d sync
  let q ← Rounded.quot T tau
  if ⌈q⌉ ≤ 0 then some none
  else
    let st ← Rounded.value (⌈q⌉ : Rat)
    let r ← Rounded.quot D st
    let dw : Int := 2 ^ sh * ⌊(⌈r⌉ : Rat) / 2 ^ sh⌋
    if dw ≤ 0 then some none
    else
      let w ← Rounded.value dw
      let n ← Rounded.quot D w
      if rising then
        let h ← Rounded.guard D S0s dw
        if 2 ^ 32 ≤ h then some none else some (some (tau, dw, ⌊n⌋))
      else some (some (tau, dw, ⌊n⌋))

/-- The closed form of R142 for `m` steps: its six terms, added from the left (powers as notes/assumptions/12.md). -/
def Rounded.closed (D T tau : Rat) (dw m : Int) : Option Rat := do
  let sigma ← Rounded.quot D T
  let mq ← Rounded.value m
  let m1 ← Rounded.value ((m - 1 : Int) : Rat)
  let m2 ← Rounded.value ((2 * m - 1 : Int) : Rat)
  let w ← Rounded.value dw
  let mt ← Rounded.value (mq * tau)
  let l ← Rounded.value (T - mt)
  let st ← Rounded.value (sigma * tau)
  let e ← Rounded.value (st - w)
  let e2 ← Rounded.value (e * e)
  let sigma2 ← Rounded.value (sigma * sigma)
  let tau2 ← Rounded.value (tau * tau)
  let tau3 ← Rounded.value (tau2 * tau)
  let l2 ← Rounded.value (l * l)
  let l3 ← Rounded.value (l2 * l)
  let mq2 ← Rounded.value (mq * mq)
  let p1 ← Rounded.prod e2 [tau, mq, m1, m2]
  let t1 ← Rounded.value (p1 / 6)
  let p2 ← Rounded.prod e [sigma, tau2, mq, m1]
  let t2 ← Rounded.value (p2 / 2)
  let p3 ← Rounded.prod mq [sigma2, tau3]
  let t3 ← Rounded.value (p3 / 3)
  let t4 ← Rounded.prod mq2 [e2, l]
  let t5 ← Rounded.prod mq [e, sigma, l2]
  let p6 ← Rounded.value (sigma2 * l3)
  let t6 ← Rounded.value (p6 / 3)
  Rounded.sum t1 [t2, t3, t4, t5, t6]

/-! ### Items of the command port -/

/-- The item is of the operand's kind and can be presented (R65, R94). -/
def Presentable : OperandKind → Token → Prop
  | .word, .word _ => True
  | .quantity, .quantity (.fin _) => True
  | _, _ => False

/-- A finite binary64 number: a 53-bit integer times a power of two of the format's range (93_implementation_defined.md
G1). -/
def IsBinary64 (v : Rat) : Prop := ∃ (k e : Int), |k| < 2 ^ 53 ∧ -1074 ≤ e ∧ e ≤ 971 ∧ v = k * (2 : Rat) ^ e

end Sys2Proof.Machine
end

