-- ==== Sys2Proof/Certificates/Slice0/Obligations.lean ====
section
/-!
DEFINITION. The statements for the provers. Each docstring names the rule it formalises, or says that it rests on a
choice of the model and names the log entry (notes/assumptions). `Exact.…` is the rules' own arithmetic on rationals
(Sys2Proof/Safety.lean).
-/

open Sys2Proof
open Sys2Proof.Machine

/-! ### Reset and the invariant -/

/-- The values the MODEL names for the parameters the spec leaves open (notes/assumptions/1.md, 2.md, 3.md): 500 MHz
from 25 MHz × 20, all-zero banks, both channels enabled; nothing waits and nothing has left the block. -/
def Obligations.ResetHoldsNamedValues : Prop :=
  State.reset.cfg = ⟨25000000, 20, 500000000, 125000000⟩ ∧ State.reset.par.numeric = .exact ∧
    State.reset.par.fom = .integral ∧ (∀ c a, State.reset.word c a = 0) ∧ (∀ c, State.reset.enabled c = true) ∧
    State.reset.rst = false ∧ State.reset.cmd = [] ∧ State.reset.resp = [] ∧ State.reset.wev = []

/-- R23, R31, R6 at `State.reset`: the shared addresses agree and the clocks are positive and derived. -/
def Obligations.ResetStateMeetsInvariant : Prop := State.reset.Inv

/-- R190: a requested reset loads the clocks and the clocks derived from them, `BANK_RESET` and `CHEN_RESET`, and
produces no response and no write event, whatever the parameters: with positive clocks under exact arithmetic, and under
binary64 with the clocks rounded and derived in that arithmetic (the MODEL's rounding, notes/assumptions/8.md). That it
comes before a waiting command, withdraws the request and leaves what waits and the port `cfg` is the MODEL's choice
(notes/assumptions/5.md). -/
def Obligations.ResetStepLoadsParameters : Prop :=
  ∀ (s : State) (ref pll sys sync : Rat), s.rst = true →
    (s.par.numeric = .exact ∧ s.cfgPort = ⟨ref, pll⟩ ∧ sys = ref * pll ∧ sync = sys / 4 ∧ 0 < ref ∧ 0 < pll) ∨
      (s.par.numeric = .binary64 ∧ round64 s.cfgPort.refClk = .fin ref ∧ round64 s.cfgPort.pllMult = .fin pll ∧
        round64 (ref * pll) = .fin sys ∧ round64 (sys / 4) = .fin sync ∧ 0 < ref ∧ 0 < pll ∧ 0 < sys ∧ 0 < sync) →
    step s = .next { s with
      cfg := ⟨ref, pll, sys, sync⟩, bank0 := s.par.bankReset0, bank1 := s.par.bankReset1,
      chen0 := s.par.chenReset0, chen1 := s.par.chenReset1, rst := false }

/-- R192: a reset with a clock that is not positive is refused, in either arithmetic. That it is looked at before a
command that waits is the MODEL's choice (notes/assumptions/5.md). -/
def Obligations.NonPositiveClockResetRefused : Prop :=
  ∀ s : State, s.rst = true → (s.cfgPort.refClk ≤ 0 ∨ s.cfgPort.pllMult ≤ 0) →
    step s = .refused .notConstructible

/-- The invariant (R23, R31, R6) is kept by every step, command or reset, from every state that meets it. -/
def Obligations.StepKeepsInvariant : Prop :=
  ∀ s t : State, s.Inv → step s = .next t → t.Inv

/-- R23: in every reachable state the two banks agree at the shared addresses. -/
def Obligations.SharedAddressesEqualInReachableStates : Prop :=
  ∀ s : State, s.Reachable → ∀ a : Addr, a.val < 3 → s.word .ch0 a = s.word .ch1 a

/-- R21, R191: no command changes `cfg`; only a reset does. That no step at all changes the parameters of R8 is the
MODEL's choice of where they stand (notes/assumptions/4.md). -/
def Obligations.OnlyResetChangesConfiguration : Prop :=
  ∀ s t : State, step s = .next t → t.par = s.par ∧ (s.rst = false → t.cfg = s.cfg ∧ t.rst = false)

/-! ### Decoding and the step -/

/-- R56 to R59, R65, R66, R77: decoding the encoding of a well-formed command gives it back, with every operand, and
leaves what follows it on the port. -/
def Obligations.DecodeOfEncodeIsTheCommand : Prop :=
  ∀ (i : Instr) (rest : List Token), i.wf = true → decode (encode i ++ rest) = .ok i rest

/-- The other direction (R64, R65): what decodes to a command IS that command's encoding, so each spelling has one
meaning and each command one spelling; and a decoded command is well-formed. -/
def Obligations.DecodedItemsAreTheEncoding : Prop :=
  ∀ (ts rest : List Token) (i : Instr), decode ts = .ok i rest → ts = encode i ++ rest ∧ i.wf = true

/-- R73: a header decodes unless its opcode is reserved or a reserved bit of its format is 1. -/
def Obligations.HeaderFaultsExactlyWhenReserved : Prop :=
  ∀ h : Word, decodeHeader h = none ↔ IllegalHeader h

/-- Words written out from the formats of R57 to R59 decode to the commands they stand for (95_test_vectors.md 5). -/
def Obligations.SpecWordsDecode : Prop :=
  decodeHeader 0x10000000 = some .encFreq ∧ decodeHeader 0x40000003 = some (.setChen true true) ∧
    decodeHeader 0x5C400000 = some (.setField 24 true) ∧ decodeHeader 0x64800000 = some (.readCur 9) ∧
    decodeHeader 0x72A00000 = some (.readBank .ch1 5) ∧ decodeHeader 0x84C0001F = some (.rmwField 9 true 31) ∧
    decodeHeader 0x98000000 = some (.rampOpt .freq) ∧ decodeHeader 0x9C000100 = none

/-- A step runs the decoded command (R79): with no reset requested, it is `exec` of the command in the state whose port
has been read past the command; a fault becomes the response `(code, no data)` and the block goes on (R171). -/
def Obligations.StepRunsTheDecodedCommand : Prop :=
  ∀ (s : State) (i : Instr) (rest : List Token), s.rst = false → decode s.cmd = .ok i rest →
    (∀ t, exec i { s with cmd := rest } = .next t → step s = .next t) ∧
    (∀ f, exec i { s with cmd := rest } = .fault f →
      step s = .next { s with cmd := rest, resp := s.resp ++ [⟨f.status, .none⟩] })

/-- R63, R64, R172, R177: a header with a reserved opcode or a 1 in a reserved bit answers `ILLEGAL_OP` with no data,
whatever its other fields; the command ends at its header, and nothing else changes. -/
def Obligations.IllegalHeaderAnswersIllegalOp : Prop :=
  ∀ (s : State) (h : Word) (rest : List Token), s.rst = false → s.cmd = .word h :: rest → IllegalHeader h →
    step s = .next { s with cmd := rest, resp := s.resp ++ [⟨.illegalOp, .none⟩] }

/-- R171, R173: a SET_FIELD, READ_CUR, READ_BANK or RMW_FIELD at an address 25 .. 31 answers `ADDR_RANGE` with no data
at the step that performs it; no state changes, no event is emitted, and the next command stands first on the port. -/
def Obligations.AddressOutOfRangeAnswersAddrRange : Prop :=
  ∀ (s : State) (a : Nat) (u : Bool) (c : Channel) (sh : Nat) (m v : Word) (i : Instr) (rest : List Token),
    24 < a → a < 32 → sh < 32 → s.rst = false →
    i = .setField a u v ∨ i = .readCur a ∨ i = .readBank c a ∨ i = .rmwField a u sh m v →
    s.cmd = encode i ++ rest →
    step s = .next { s with cmd := rest, resp := s.resp ++ [⟨.addrRange, .none⟩] }

/-- R150, R174: RAMP_OPT of type none answers `BAD_RAMP_TYPE` with no data at the step that performs it, whatever the
operands, and nothing changes. -/
def Obligations.RampTypeNoneAnswersBadRampType : Prop :=
  ∀ (s : State) (s0 e0 tr tf : Rat) (rest : List Token), s.rst = false →
    s.cmd = encode (.rampOpt .none s0 e0 tr tf) ++ rest →
    step s = .next { s with cmd := rest, resp := s.resp ++ [⟨.badRampType, .none⟩] }

/-- R173, R174, R176: the only faults of the commands are an address above 24 and the ramp type none; otherwise every
command completes, for every operand, in every state; none is refused. -/
def Obligations.CommandsFaultOnlyOnAddressAndRampType : Prop :=
  ∀ (i : Instr) (s : State),
    (∃ a, 24 < a ∧ exec i s = .fault .addrRange ∧
      ((∃ u v, i = .setField a u v) ∨ i = .readCur a ∨ (∃ c, i = .readBank c a) ∨
        (∃ u sh m v, i = .rmwField a u sh m v))) ∨
    ((∃ s0 e0 tr tf, i = .rampOpt .none s0 e0 tr tf) ∧ exec i s = .fault .badRampType) ∨
    ∃ t, exec i s = .next t

/-- R188, R193: with no command on the port and no reset requested, a step leaves the state as it is. -/
def Obligations.IdleBlockHoldsItsState : Prop :=
  ∀ s : State, s.rst = false → s.cmd = [] → step s = .next s

/-- R65, R94, R161, U4: at every operand position of every header, whatever presentable operands stand before it, an item
of the wrong kind or a non-finite quantity is refused and performs nothing; so is a quantity where a header must stand.
That the STEP refuses, and that it does so for a header too, is the MODEL's reading (notes/assumptions/17.md). -/
def Obligations.UnpresentableItemsAreRefused : Prop :=
  ∀ (s : State) (rest : List Token), s.rst = false →
    (∀ (h : Word) (hd : Header) (ks ks' : List OperandKind) (ts : List Token), decodeHeader h = some hd →
      List.Forall₂ Presentable ks ts →
      (∀ x, hd.operandKinds = ks ++ .word :: ks' → s.cmd = .word h :: (ts ++ .quantity x :: rest) →
        step s = .refused (.port .operandKind)) ∧
      (∀ w, hd.operandKinds = ks ++ .quantity :: ks' → s.cmd = .word h :: (ts ++ .word w :: rest) →
        step s = .refused (.port .operandKind)) ∧
      (∀ x, (∀ q, x ≠ .fin q) → hd.operandKinds = ks ++ .quantity :: ks' →
        s.cmd = .word h :: (ts ++ .quantity x :: rest) → step s = .refused (.port .nonFinite))) ∧
    ∀ x, s.cmd = .quantity x :: rest → step s = .refused (.port .headerKind)

/-! ### The encoders -/

/-- R81 (default arithmetic): ENC_FREQ answers `wrap_32(trunc(X / SYS_CLK × 2^32))`, and nothing but the response port
changes. -/
def Obligations.EncFreqAnswersTuningWord : Prop :=
  ∀ (s : State) (x : Rat), s.par.numeric = .exact → 0 < s.cfg.sysClk →
    ∃ w : Word, (w.toNat : Int) = Exact.trunc (x / s.cfg.sysClk * 2 ^ 32) % 2 ^ 32 ∧
      exec (.encFreq x) s = .next { s with resp := s.resp ++ [⟨.ok, .word w⟩] }

/-- R84 (default arithmetic): ENC_PHASE answers `wrap_14(trunc(X / 360 × 2^14))`, and nothing but the response port
changes. -/
def Obligations.EncPhaseAnswersTuningWord : Prop :=
  ∀ (s : State) (x : Rat), s.par.numeric = .exact →
    ∃ w : BitVec 14, (w.toNat : Int) = Exact.trunc (x / 360 * 2 ^ 14) % 2 ^ 14 ∧
      exec (.encPhase x) s = .next { s with resp := s.resp ++ [⟨.ok, .word14 w⟩] }

/-- R87 (default arithmetic): ENC_AMP answers `wrap_10(trunc(X × (2^10 − 1)))`, and nothing but the response port
changes. -/
def Obligations.EncAmpAnswersTuningWord : Prop :=
  ∀ (s : State) (x : Rat), s.par.numeric = .exact →
    ∃ w : BitVec 10, (w.toNat : Int) = Exact.trunc (x * (2 ^ 10 - 1)) % 2 ^ 10 ∧
      exec (.encAmp x) s = .next { s with resp := s.resp ++ [⟨.ok, .word10 w⟩] }

/-- R94: under binary64 the scaled value is computed in the order written, each operation rounded, and truncated. The
rounding, and that of the operand on entry, are the MODEL's (notes/assumptions/8.md); where a value overflows, the word is
the low bits of the free integer of notes/assumptions/9.md, and the command still completes. -/
def Obligations.EncodersComputeInBinary64Order : Prop :=
  ∀ (s : State) (x : Rat), s.par.numeric = .binary64 →
    (∀ x', round64 x = .fin x' →
      (∀ q, s.cfg.sysClk ≠ 0 → round64 (x' / s.cfg.sysClk) = .fin q →
        (∀ y, round64 (q * 2 ^ 32) = .fin y → exec (.encFreq x) s =
          .next { s with resp := s.resp ++ [⟨.ok, .word (BitVec.ofInt 32 (Exact.trunc y))⟩] }) ∧
        (∀ b, round64 (q * 2 ^ 32) = .inf b → exec (.encFreq x) s = .next { s with
          resp := s.resp ++ [⟨.ok, .word (BitVec.ofInt 32 (Config.nonFiniteInt .trunc (.inf b)))⟩] })) ∧
      (∀ q y, round64 (x' / 360) = .fin q → round64 (q * 2 ^ 14) = .fin y →
        exec (.encPhase x) s =
          .next { s with resp := s.resp ++ [⟨.ok, .word14 (BitVec.ofInt 14 (Exact.trunc y))⟩] }) ∧
      (∀ y, round64 (x' * 1023) = .fin y →
        exec (.encAmp x) s =
          .next { s with resp := s.resp ++ [⟨.ok, .word10 (BitVec.ofInt 10 (Exact.trunc y))⟩] }) ∧
      (∀ b, round64 (x' * 1023) = .inf b → exec (.encAmp x) s = .next { s with
        resp := s.resp ++ [⟨.ok, .word10 (BitVec.ofInt 10 (Config.nonFiniteInt .trunc (.inf b)))⟩] })) ∧
    (∀ b, round64 x = .inf b →
      (0 < s.cfg.sysClk → exec (.encFreq x) s = .next { s with
        resp := s.resp ++ [⟨.ok, .word (BitVec.ofInt 32 (Config.nonFiniteInt .trunc (.inf b)))⟩] }) ∧
      exec (.encPhase x) s = .next { s with
        resp := s.resp ++ [⟨.ok, .word14 (BitVec.ofInt 14 (Config.nonFiniteInt .trunc (.inf b)))⟩] } ∧
      exec (.encAmp x) s = .next { s with
        resp := s.resp ++ [⟨.ok, .word10 (BitVec.ofInt 10 (Config.nonFiniteInt .trunc (.inf b)))⟩] })

/-- R80, R90: in either arithmetic every rational operand gets a word: the encoders complete in every state, writing
nothing and emitting nothing. -/
def Obligations.EncodersCompleteOnEveryOperand : Prop :=
  ∀ (s : State) (x : Rat),
    (∃ w, exec (.encFreq x) s = .next { s with resp := s.resp ++ [⟨.ok, .word w⟩] }) ∧
    (∃ w, exec (.encPhase x) s = .next { s with resp := s.resp ++ [⟨.ok, .word14 w⟩] }) ∧
    (∃ w, exec (.encAmp x) s = .next { s with resp := s.resp ++ [⟨.ok, .word10 w⟩] })

/-- R82, R85, R88 (default arithmetic): on each encoder's domain the word decodes to a value at most one quantum below
the operand, never above it. -/
def Obligations.EncodersLoseLessThanOneQuantum : Prop :=
  ∀ (s : State) (x : Rat), s.par.numeric = .exact → 0 ≤ x →
    (0 < s.cfg.sysClk → x ≤ s.cfg.sysClk * (2 ^ 32 - 1) / 2 ^ 32 →
      ∃ w : Word, exec (.encFreq x) s = .next { s with resp := s.resp ++ [⟨.ok, .word w⟩] } ∧
        0 ≤ x - (w.toNat : Rat) / 2 ^ 32 * s.cfg.sysClk ∧
        x - (w.toNat : Rat) / 2 ^ 32 * s.cfg.sysClk < s.cfg.sysClk / 2 ^ 32) ∧
    (x < 360 →
      ∃ w : BitVec 14, exec (.encPhase x) s = .next { s with resp := s.resp ++ [⟨.ok, .word14 w⟩] } ∧
        0 ≤ x - (w.toNat : Rat) * 360 / 2 ^ 14 ∧ x - (w.toNat : Rat) * 360 / 2 ^ 14 < 360 / 2 ^ 14) ∧
    (x ≤ 1 →
      ∃ w : BitVec 10, exec (.encAmp x) s = .next { s with resp := s.resp ++ [⟨.ok, .word10 w⟩] } ∧
        0 ≤ x - (w.toNat : Rat) / 1023 ∧ x - (w.toNat : Rat) / 1023 < 1 / 1023)

/-- R90 (default arithmetic): a negative scaled value above `−2^N` wraps to `2^N − |trunc(y)|`, or to 0 where it
truncates to 0. -/
def Obligations.EncodersWrapNegativeValues : Prop :=
  ∀ (s : State) (x : Rat), s.par.numeric = .exact → x < 0 →
    (0 < s.cfg.sysClk → -2 ^ 32 < x / s.cfg.sysClk * 2 ^ 32 →
      ∃ w : Word, exec (.encFreq x) s = .next { s with resp := s.resp ++ [⟨.ok, .word w⟩] } ∧
        (w.toNat : Int) = if -1 < x / s.cfg.sysClk * 2 ^ 32 then 0
          else 2 ^ 32 - |⌈x / s.cfg.sysClk * 2 ^ 32⌉|) ∧
    (-2 ^ 14 < x / 360 * 2 ^ 14 →
      ∃ w : BitVec 14, exec (.encPhase x) s = .next { s with resp := s.resp ++ [⟨.ok, .word14 w⟩] } ∧
        (w.toNat : Int) = if -1 < x / 360 * 2 ^ 14 then 0 else 2 ^ 14 - |⌈x / 360 * 2 ^ 14⌉|) ∧
    (-2 ^ 10 < x * 1023 →
      ∃ w : BitVec 10, exec (.encAmp x) s = .next { s with resp := s.resp ++ [⟨.ok, .word10 w⟩] } ∧
        (w.toNat : Int) = if -1 < x * 1023 then 0 else 2 ^ 10 - |⌈x * 1023⌉|)

/-- R93: the word of an encoder depends on the operand, the arithmetic and (ENC_FREQ) `SYS_CLK` alone: two states that
agree on these answer alike, whatever else they hold. -/
def Obligations.EncodersArePure : Prop :=
  ∀ (s s' : State) (x : Rat), s'.par.numeric = s.par.numeric →
    (s'.cfg.sysClk = s.cfg.sysClk →
      ∃ r, exec (.encFreq x) s = .next { s with resp := s.resp ++ [r] } ∧
        exec (.encFreq x) s' = .next { s' with resp := s'.resp ++ [r] }) ∧
    (∃ r, exec (.encPhase x) s = .next { s with resp := s.resp ++ [r] } ∧
      exec (.encPhase x) s' = .next { s' with resp := s'.resp ++ [r] }) ∧
    (∃ r, exec (.encAmp x) s = .next { s with resp := s.resp ++ [r] } ∧
      exec (.encAmp x) s' = .next { s' with resp := s'.resp ++ [r] })

/-! ### The register shadow -/

/-- R101: SET_CHEN writes the enable pair, responds, and changes nothing else: no bank word, no event. -/
def Obligations.SetChenWritesOnlyTheEnables : Prop :=
  ∀ (s : State) (e0 e1 : Bool),
    exec (.setChen e0 e1) s = .next { s with chen0 := e0, chen1 := e1, resp := s.resp ++ [⟨.ok, .none⟩] }

/-- R102: SET_FIELD raises `ADDR_RANGE` at an address above 24; at 0 .. 24 it writes `V` whole into both banks at a
shared address and into the enabled banks elsewhere, changes no other word, emits one event, responds, and leaves
everything else. -/
def Obligations.SetFieldWritesTargetedBanks : Prop :=
  ∀ (s : State) (u : Bool) (v : Word),
    (∀ a : Nat, 24 < a → exec (.setField a u v) s = .fault .addrRange) ∧
    ∀ a : Addr, ∃ t, exec (.setField a.val u v) s = .next t ∧
      (∀ c, t.word c a = if a.val < 3 ∨ s.enabled c = true then v else s.word c a) ∧
      (∀ c b, b ≠ a → t.word c b = s.word c b) ∧
      t = { s with bank0 := t.bank0, bank1 := t.bank1, wev := s.wev ++ [⟨a, v, u⟩],
                   resp := s.resp ++ [⟨.ok, .none⟩] }

/-- R105 (R26, R106): READ_CUR raises `ADDR_RANGE` at an address above 24; at 0 .. 24 it answers the enabled channel's
word, the OR of both with both enabled, and 0 with none, and nothing but the response port changes. -/
def Obligations.ReadCurAnswersMergedView : Prop :=
  ∀ s : State,
    (∀ a : Nat, 24 < a → exec (.readCur a) s = .fault .addrRange) ∧
    ∀ a : Addr, exec (.readCur a.val) s = .next { s with resp := s.resp ++ [⟨.ok, .word
      (match s.chen0, s.chen1 with
        | true, true => s.word .ch0 a ||| s.word .ch1 a
        | true, false => s.word .ch0 a
        | false, true => s.word .ch1 a
        | false, false => 0)⟩] }

/-- R108: READ_BANK raises `ADDR_RANGE` at an address above 24; at 0 .. 24 it answers the named bank's word, whatever the
enables, and nothing but the response port changes; where the banks agree at the shared addresses (R23), both channels
answer alike there. -/
def Obligations.ReadBankAnswersBankWord : Prop :=
  ∀ s : State,
    (∀ (c : Channel) (a : Nat), 24 < a → exec (.readBank c a) s = .fault .addrRange) ∧
    (∀ (c : Channel) (a : Addr),
      exec (.readBank c a.val) s = .next { s with resp := s.resp ++ [⟨.ok, .word (s.word c a)⟩] }) ∧
    (SharedEqual s.bank0 s.bank1 → ∀ a : Addr, a.val < 3 →
      exec (.readBank .ch0 a.val) s = exec (.readBank .ch1 a.val) s)

/-- R110 (R109): RMW_FIELD raises `ADDR_RANGE` at an address above 24; at 0 .. 24 it writes
`(cur(a) AND NOT M) OR wrap_32(V << s)` where SET_FIELD would write, changes no other word, emits one event with that
word, responds, and leaves everything else. -/
def Obligations.RmwFieldWritesMergedWord : Prop :=
  ∀ (s : State) (u : Bool) (sh : Nat) (m v : Word), sh < 32 →
    (∀ a : Nat, 24 < a → exec (.rmwField a u sh m v) s = .fault .addrRange) ∧
    ∀ a : Addr, ∃ t w, exec (.rmwField a.val u sh m v) s = .next t ∧
      w = (s.cur a &&& ~~~m) ||| BitVec.ofNat 32 (v.toNat * 2 ^ sh) ∧
      (∀ c, t.word c a = if a.val < 3 ∨ s.enabled c = true then w else s.word c a) ∧
      (∀ c b, b ≠ a → t.word c b = s.word c b) ∧
      t = { s with bank0 := t.bank0, bank1 := t.bank1, wev := s.wev ++ [⟨a, w, u⟩],
                   resp := s.resp ++ [⟨.ok, .none⟩] }

/-- R111: the written word bit by bit. A bit is 1 if the current view has it and `M` does not, or if `V` has the bit
`s` places below; `V` is not masked by `M`, and bits shifted above bit 31 are lost. -/
def Obligations.RmwFieldMergesBitByBit : Prop :=
  ∀ (s : State) (a : Addr) (u : Bool) (sh : Nat) (m v : Word), sh < 32 →
    ∃ t w, exec (.rmwField a.val u sh m v) s = .next t ∧ t.wev = s.wev ++ [⟨a, w, u⟩] ∧
      ∀ k, k < 32 → w.getLsbD k =
        ((s.cur a).getLsbD k && !m.getLsbD k || (decide (sh ≤ k) && v.getLsbD (k - sh)))

/-- R112: with both channels enabled RMW_FIELD leaves the two banks equal at the address, each holding the OR of the
two old words outside the mask. -/
def Obligations.RmwFieldCopiesDivergentBits : Prop :=
  ∀ (s : State) (a : Addr) (u : Bool) (sh : Nat) (m v : Word), s.chen0 = true → s.chen1 = true → sh < 32 →
    ∃ t, exec (.rmwField a.val u sh m v) s = .next t ∧ t.word .ch0 a = t.word .ch1 a ∧
      ∀ c, t.word c a = ((s.word .ch0 a ||| s.word .ch1 a) &&& ~~~m) ||| (v <<< sh)

/-- R113: with no channel enabled RMW_FIELD emits `wrap_32(V << s)`; at an address 3 .. 24 no bank changes, nor anything
else but the response, and at a shared one that word replaces the whole register in both banks and no other word changes.
SET_FIELD too changes no bank at 3 .. 24 and still emits its event. -/
def Obligations.NoChannelWritesDiscardOldBits : Prop :=
  ∀ (s : State) (a : Addr) (u : Bool) (sh : Nat) (m v : Word), s.chen0 = false → s.chen1 = false → sh < 32 →
    (3 ≤ a.val → exec (.rmwField a.val u sh m v) s =
      .next { s with wev := s.wev ++ [⟨a, v <<< sh, u⟩], resp := s.resp ++ [⟨.ok, .none⟩] }) ∧
    (a.val < 3 → ∃ t, exec (.rmwField a.val u sh m v) s = .next t ∧
      (∀ c b, t.word c b = if b = a then v <<< sh else s.word c b) ∧
      t = { s with bank0 := t.bank0, bank1 := t.bank1, wev := s.wev ++ [⟨a, v <<< sh, u⟩],
                   resp := s.resp ++ [⟨.ok, .none⟩] }) ∧
    (3 ≤ a.val → exec (.setField a.val u v) s =
      .next { s with wev := s.wev ++ [⟨a, v, u⟩], resp := s.resp ++ [⟨.ok, .none⟩] })

/-- R114: performing an RMW_FIELD (or a SET_FIELD) twice leaves the banks and enables as performing it once, in every
state, and the second emits an event equal to the first's. -/
def Obligations.MaskedWritesAreIdempotent : Prop :=
  ∀ (s : State) (a : Addr) (u : Bool) (sh : Nat) (m v : Word) (i : Instr), sh < 32 →
    i = .rmwField a.val u sh m v ∨ i = .setField a.val u v →
    ∃ t t' e, exec i s = .next t ∧ exec i t = .next t' ∧ t'.bank0 = t.bank0 ∧ t'.bank1 = t.bank1 ∧
      t'.chen0 = t.chen0 ∧ t'.chen1 = t.chen1 ∧ t.wev = s.wev ++ [e] ∧ t'.wev = s.wev ++ [e, e]

/-- R115, where a channel is enabled or the address is not shared: two RMW_FIELDs of one register whose masks are
disjoint, each with its value inside its own mask, leave the same banks in either order, every targeted bank holding both
fields over the old current view. With no channel enabled the law FAILS at a shared address: see
`NoChannelSharedWritesDoNotCommute` and notes/assumptions/15.md. -/
def Obligations.DisjointMaskedWritesCommute : Prop :=
  ∀ (s : State) (a : Addr) (u u' : Bool) (sA sB : Nat) (mA mB vA vB : Word), sA < 32 → sB < 32 →
    s.chen0 = true ∨ s.chen1 = true ∨ 3 ≤ a.val →
    mA &&& mB = 0 → (vA <<< sA) &&& ~~~mA = 0 → (vB <<< sB) &&& ~~~mB = 0 →
    ∃ tA tAB tB tBA, exec (.rmwField a.val u sA mA vA) s = .next tA ∧
      exec (.rmwField a.val u' sB mB vB) tA = .next tAB ∧
      exec (.rmwField a.val u' sB mB vB) s = .next tB ∧
      exec (.rmwField a.val u sA mA vA) tB = .next tBA ∧
      tAB.bank0 = tBA.bank0 ∧ tAB.bank1 = tBA.bank1 ∧
      (∀ c, a.val < 3 ∨ s.enabled c = true →
        tAB.word c a = (s.cur a &&& ~~~(mA ||| mB)) ||| (vA <<< sA) ||| (vB <<< sB))

/-- The corner R115 does not except (R106, R110, R113 decide it): with no channel enabled, each RMW_FIELD of a shared
register reads 0 and replaces the whole register, so of two such writes the last one alone remains in both banks. -/
def Obligations.NoChannelSharedWritesDoNotCommute : Prop :=
  ∀ (s : State) (a : Addr) (u u' : Bool) (sA sB : Nat) (mA mB vA vB : Word), sA < 32 → sB < 32 → a.val < 3 →
    s.chen0 = false → s.chen1 = false →
    ∃ tA tAB, exec (.rmwField a.val u sA mA vA) s = .next tA ∧ exec (.rmwField a.val u' sB mB vB) tA = .next tAB ∧
      ∀ c, tA.word c a = vA <<< sA ∧ tAB.word c a = vB <<< sB

/-- R116: after a write at a shared address the two banks agree there, whatever the enables and whatever they held. -/
def Obligations.SharedWriteMakesBanksEqual : Prop :=
  ∀ (s : State) (a : Addr) (u : Bool) (sh : Nat) (m v : Word) (i : Instr), a.val < 3 → sh < 32 →
    i = .rmwField a.val u sh m v ∨ i = .setField a.val u v →
    ∃ t, exec i s = .next t ∧ t.word .ch0 a = t.word .ch1 a

/-- R118: the apply flag is passed to the event only: with either flag a write leaves the same banks and enables. -/
def Obligations.ApplyFlagReachesOnlyTheEvent : Prop :=
  ∀ (s : State) (a : Addr) (u u' : Bool) (sh : Nat) (m v : Word) (i i' : Instr), sh < 32 →
    (i = .rmwField a.val u sh m v ∧ i' = .rmwField a.val u' sh m v) ∨
      (i = .setField a.val u v ∧ i' = .setField a.val u' v) →
    ∃ t t' w, exec i s = .next t ∧ exec i' s = .next t' ∧ t.wev = s.wev ++ [⟨a, w, u⟩] ∧
      t' = { t with wev := s.wev ++ [⟨a, w, u'⟩] }

/-- R72: RMW_FIELD is the sequence READ_CUR, then SET_FIELD of the merged word performed in READ_CUR's next state: the
same state but for READ_CUR's response, which the sequence gives before SET_FIELD's. -/
def Obligations.RmwFieldIsReadThenSetField : Prop :=
  ∀ (s : State) (a : Addr) (u : Bool) (sh : Nat) (m v : Word), sh < 32 →
    ∃ r s₁ t, exec (.readCur a.val) s = .next s₁ ∧ s₁ = { s with resp := s.resp ++ [⟨.ok, .word r⟩] } ∧
      exec (.rmwField a.val u sh m v) s = .next t ∧ t.resp = s.resp ++ [⟨.ok, .none⟩] ∧
      exec (.setField a.val u ((r &&& ~~~m) ||| BitVec.ofNat 32 (v.toNat * 2 ^ sh))) s₁ =
        .next { t with resp := s.resp ++ [⟨.ok, .word r⟩, ⟨.ok, .none⟩] }

/-- R72, R111: `WRITE_SUBFIELD a, hi, lo, v, u` with a value that fits the field replaces bits `hi` .. `lo` of the
current view by the value and keeps every other bit. -/
def Obligations.WriteSubfieldReplacesOnlyItsBits : Prop :=
  ∀ (s : State) (a : Addr) (hi lo : Nat) (v : Word) (u : Bool), lo ≤ hi → hi ≤ 31 → v.toNat < 2 ^ (hi - lo + 1) →
    ∃ t w, exec (pseudoWriteSubfield a.val hi lo v u) s = .next t ∧ t.wev = s.wev ++ [⟨a, w, u⟩] ∧
      ∀ k, k < 32 → w.getLsbD k =
        if lo ≤ k ∧ k ≤ hi then v.getLsbD (k - lo) else (s.cur a).getLsbD k

/-! ### Whole-machine rules -/

/-- R29: which commands write each piece of state. `cfg` and the parameters: none. The banks and the events: SET_FIELD
and RMW_FIELD. The enables: SET_CHEN. The input ports: none. Every completed command adds one response. -/
def Obligations.CommandsWriteOnlyTheirOwnState : Prop :=
  ∀ (i : Instr) (s t : State), exec i s = .next t →
    t.par = s.par ∧ t.cfg = s.cfg ∧ t.cfgPort = s.cfgPort ∧ t.rst = s.rst ∧ t.cmd = s.cmd ∧
      (∃ r, t.resp = s.resp ++ [r]) ∧
      ((t.bank0 ≠ s.bank0 ∨ t.bank1 ≠ s.bank1 ∨ t.wev ≠ s.wev) →
        (∃ a u v, i = .setField a u v) ∨ (∃ a u sh m v, i = .rmwField a u sh m v)) ∧
      ((t.chen0 ≠ s.chen0 ∨ t.chen1 ≠ s.chen1) → ∃ e0 e1, i = .setChen e0 e1)

/-- R52, R55, R79, R107: a step only appends to the output ports: at most one response and at most one write event, an
event only with an `OK` response, so events leave in the order of the commands that emitted them. -/
def Obligations.StepAppendsOneResponseAtMostOneEvent : Prop :=
  ∀ s t : State, step s = .next t →
    ∃ rs es, t.resp = s.resp ++ rs ∧ t.wev = s.wev ++ es ∧ rs.length ≤ 1 ∧ es.length ≤ 1 ∧
      (es ≠ [] → rs = [⟨.ok, .none⟩])

/-- R34, R35: no command's result depends on an earlier command except through the banks and the enables: two states
that agree on the parameters, `cfg`, the banks and the enables give the same new banks and enables and append the same
response and events, whatever has left the output ports before. -/
def Obligations.CommandsIgnoreOutputHistory : Prop :=
  ∀ (i : Instr) (s s' t : State), s'.par = s.par → s'.cfg = s.cfg → s'.bank0 = s.bank0 → s'.bank1 = s.bank1 →
    s'.chen0 = s.chen0 → s'.chen1 = s.chen1 → exec i s = .next t →
    ∃ t' r es, exec i s' = .next t' ∧ t'.bank0 = t.bank0 ∧ t'.bank1 = t.bank1 ∧ t'.chen0 = t.chen0 ∧
      t'.chen1 = t.chen1 ∧ t.resp = s.resp ++ [r] ∧ t'.resp = s'.resp ++ [r] ∧
      t.wev = s.wev ++ es ∧ t'.wev = s'.wev ++ es

/-! ### The ramp optimizer -/

/-- R149, R160: RAMP_OPT of a ramp type other than none completes on every operand in either arithmetic; it changes
nothing but the response port, and its response depends on the operands, the parameters and `cfg` alone. -/
def Obligations.RampOptOnlyResponds : Prop :=
  ∀ (s s' : State) (t : RampType) (s0 e0 tr tf : Rat), t ≠ .none → s'.par = s.par → s'.cfg = s.cfg →
    ∃ r, exec (.rampOpt t s0 e0 tr tf) s = .next { s with resp := s.resp ++ [r] } ∧
      exec (.rampOpt t s0 e0 tr tf) s' = .next { s' with resp := s'.resp ++ [r] }

/-- R130, R132, R133, R145 to R148, R161: the response of RAMP_OPT from its two legs, run with the block's figure of merit
on the scaled span and low end, the rising leg first, delta words saturated to 32 bits. Under exact arithmetic the ends
are `S0 × K` and `E0 × K`; under binary64 they are those of `Rounded.ends`, where all its values are finite (the rounding
and that of the operands are the MODEL's, notes/assumptions/8.md). -/
def Obligations.RampOptAnswersFromItsLegs : Prop :=
  ∀ (s : State) (t : RampType) (s0 e0 tr tf S0s D TR TF : Rat), t ≠ .none → 0 < s.cfg.sysClk →
    (s.par.numeric = .exact ∧ S0s = s0 * Exact.scale s.cfg.sysClk t ∧
        D = e0 * Exact.scale s.cfg.sysClk t - s0 * Exact.scale s.cfg.sysClk t ∧ TR = tr ∧ TF = tf) ∨
      (s.par.numeric = .binary64 ∧ Rounded.ends s.cfg.sysClk t s0 e0 = some (S0s, D) ∧
        Rounded.value tr = some TR ∧ Rounded.value tf = some TF) →
    ∀ (n : Numeric) (rise fall : Option Candidate), n = s.par.numeric →
      rise = leg n (fomOf s.par.fom n) s.cfg.syncClk (.fin D) (.fin S0s) (.fin TR) (rampShift t) true →
      fall = leg n (fomOf s.par.fom n) s.cfg.syncClk (.fin D) (.fin S0s) (.fin TF) (rampShift t) false →
      (rise = none → exec (.rampOpt t s0 e0 tr tf) s =
        .next { s with resp := s.resp ++ [⟨.rampRiseNone, .ramp 0 0 0 0⟩] }) ∧
      (rise ≠ none → fall = none → exec (.rampOpt t s0 e0 tr tf) s =
        .next { s with resp := s.resp ++ [⟨.rampFallNone, .ramp 0 0 0 0⟩] }) ∧
      (∀ r f, rise = some r → fall = some f → ∃ rd rdw fd fdw, exec (.rampOpt t s0 e0 tr tf) s =
          .next { s with resp := s.resp ++ [⟨.ok, .ramp rd rdw fd fdw⟩] } ∧
        rd.toNat = r.d ∧ (rdw.toNat : Int) = min r.dw (2 ^ 32 - 1) ∧
        fd.toNat = f.d ∧ (fdw.toNat : Int) = min f.dw (2 ^ 32 - 1))

/-- R143 (with R134 to R139, default arithmetic), for ANY rational figure of merit: the leg's result is a divider that
survives, its delta word that of R136, with the least merit of all survivors, and of equals the lowest divider. And the
leg run with the block's own figure of merit, in each form the parameter `FOM` takes, IS such a leg. -/
def Obligations.LegPicksLeastMeritLowestDivider : Prop :=
  (∀ (fom : Rat → Rat → Rat → Int → Int → Rat) (sync D S0s T : Rat) (sh : Nat) (rising : Bool) (c : Candidate),
    0 < sync → leg .exact (liftFom fom) sync (.fin D) (.fin S0s) (.fin T) sh rising = some c →
    Exact.Survives sync D S0s T sh rising c.d ∧ c.dw = Exact.deltaWord sync D T sh c.d ∧
      c.j = .fin (Exact.merit fom sync D T sh c.d) ∧
      ∀ d, Exact.Survives sync D S0s T sh rising d →
        Exact.merit fom sync D T sh c.d ≤ Exact.merit fom sync D T sh d ∧
        (Exact.merit fom sync D T sh d = Exact.merit fom sync D T sh c.d → c.d ≤ d)) ∧
  ∀ form : FomForm, ∃ fom : Rat → Rat → Rat → Int → Int → Rat,
    (∀ (D T tau : Rat) (dw nFull : Int), 0 < T → 0 < tau →
      fomOf form .exact (.fin D) (.fin T) (.fin tau) dw nFull = .fin (fom D T tau dw nFull)) ∧
    ∀ (sync D S0s T : Rat) (sh : Nat) (rising : Bool), 0 < sync →
      leg .exact (fomOf form .exact) sync (.fin D) (.fin S0s) (.fin T) sh rising =
        leg .exact (liftFom fom) sync (.fin D) (.fin S0s) (.fin T) sh rising

/-- R144 (default arithmetic), for any figure of merit: a leg finds nothing exactly when no divider survives; what it
finds has a divider 1 .. 255 and a positive delta word that is a multiple of the sub-field's granularity. -/
def Obligations.LegFailsExactlyWithoutSurvivor : Prop :=
  ∀ (fom : Fom) (sync D S0s T : Rat) (sh : Nat) (rising : Bool), 0 < sync →
    (leg .exact fom sync (.fin D) (.fin S0s) (.fin T) sh rising = none ↔
      ∀ d, ¬ Exact.Survives sync D S0s T sh rising d) ∧
    ∀ c, leg .exact fom sync (.fin D) (.fin S0s) (.fin T) sh rising = some c →
      1 ≤ c.d ∧ c.d ≤ 255 ∧ 1 ≤ c.dw ∧ (2 ^ sh : Int) ∣ c.dw

/-- R148, R157 (default arithmetic): every `OK` result has dividers 1 .. 255 and positive delta words, each a multiple of
the granularity saturated to 32 bits, and the rising one passes the overflow guard before saturation. -/
def Obligations.OkRampResultsAreValid : Prop :=
  ∀ (s t : State) (ty : RampType) (s0 e0 tr tf : Rat) (rd fd : BitVec 8) (rdw fdw : Word),
    s.par.numeric = .exact → ClockConfig.Good .exact s.cfg →
    exec (.rampOpt ty s0 e0 tr tf) s = .next t → t.resp = s.resp ++ [⟨.ok, .ramp rd rdw fd fdw⟩] →
    1 ≤ rd.toNat ∧ 1 ≤ fd.toNat ∧ 1 ≤ rdw.toNat ∧ 1 ≤ fdw.toNat ∧
      ∃ dr df : Int, (rdw.toNat : Int) = min dr (2 ^ 32 - 1) ∧ (fdw.toNat : Int) = min df (2 ^ 32 - 1) ∧
        (2 ^ rampShift ty : Int) ∣ dr ∧ (2 ^ rampShift ty : Int) ∣ df ∧
        (dr : Rat) * ⌈(e0 - s0) * Exact.scale s.cfg.sysClk ty / dr⌉ + s0 * Exact.scale s.cfg.sysClk ty < 2 ^ 32

/-- R152 (default arithmetic): a ramp that does not rise answers `RAMP_RISE_NONE` with the all-zero result. -/
def Obligations.RampThatDoesNotRiseFails : Prop :=
  ∀ (s : State) (ty : RampType) (s0 e0 tr tf : Rat), ty ≠ .none → s.par.numeric = .exact →
    ClockConfig.Good .exact s.cfg → e0 ≤ s0 →
    exec (.rampOpt ty s0 e0 tr tf) s = .next { s with resp := s.resp ++ [⟨.rampRiseNone, .ramp 0 0 0 0⟩] }

/-- R135, R153 (default arithmetic): a rise duration that is not positive answers `RAMP_RISE_NONE`; with a fall duration
that is not positive the answer is `RAMP_RISE_NONE` or `RAMP_FALL_NONE`, as the rising leg decides. -/
def Obligations.NonPositiveDurationsFail : Prop :=
  ∀ (s : State) (ty : RampType) (s0 e0 tr tf : Rat), ty ≠ .none → s.par.numeric = .exact →
    ClockConfig.Good .exact s.cfg →
    (tr ≤ 0 → exec (.rampOpt ty s0 e0 tr tf) s =
      .next { s with resp := s.resp ++ [⟨.rampRiseNone, .ramp 0 0 0 0⟩] }) ∧
    (tf ≤ 0 → ∀ d, Exact.Survives s.cfg.syncClk ((e0 - s0) * Exact.scale s.cfg.sysClk ty)
        (s0 * Exact.scale s.cfg.sysClk ty) tr (rampShift ty) true d →
      exec (.rampOpt ty s0 e0 tr tf) s =
        .next { s with resp := s.resp ++ [⟨.rampFallNone, .ramp 0 0 0 0⟩] })

/-- R158 (default arithmetic): a ramp whose scaled high end reaches `2^32`, or passes `2^32 − 1` from an integer scaled
low end, is infeasible for every duration. -/
def Obligations.RampToTheTopIsInfeasible : Prop :=
  ∀ (s : State) (ty : RampType) (s0 e0 tr tf : Rat), ty ≠ .none → s.par.numeric = .exact →
    ClockConfig.Good .exact s.cfg →
    (2 ^ 32 ≤ e0 * Exact.scale s.cfg.sysClk ty ∨
      (∃ z : Int, s0 * Exact.scale s.cfg.sysClk ty = z) ∧ 2 ^ 32 - 1 < e0 * Exact.scale s.cfg.sysClk ty) →
    exec (.rampOpt ty s0 e0 tr tf) s = .next { s with resp := s.resp ++ [⟨.rampRiseNone, .ramp 0 0 0 0⟩] }

/-- R140: the falling leg has no overflow guard. In either arithmetic its result does not depend on the low end at all;
and (default arithmetic) each of its dividers gives a candidate exactly when its step count and delta word are positive,
however far the candidate runs. -/
def Obligations.FallingLegHasNoOverflowGuard : Prop :=
  (∀ (n : Numeric) (fom : Fom) (sync : Rat) (D S0s S0s' T : Quantity) (sh : Nat),
    leg n fom sync D S0s T sh false = leg n fom sync D S0s' T sh false) ∧
  ∀ (fom : Fom) (sync D S0s T : Rat) (sh d : Nat), 0 < sync → 1 ≤ d → d ≤ 255 →
    (candidate .exact fom sync (.fin D) (.fin S0s) (.fin T) sh false d ≠ none ↔
      0 < Exact.steps sync T d ∧ 0 < Exact.deltaWord sync D T sh d)

/-- R141, R142 (default arithmetic): the closed form the block computes IS the integral over the leg's duration of the
squared deviation between the ideal ramp and the staircase. And the unclipped form of D7 (the MODEL's reading of its
words, notes/assumptions/13.md) is the sum over all steps with a tail of signed length, which is the same integral where
the steps end by `T`. -/
def Obligations.ClosedFormIsTheIntegral : Prop :=
  ∀ (D T tau : Rat) (dw nFull : Int), 0 < T → 0 < tau → 0 ≤ nFull →
    (∃ J : Rat, fomOf .integral .exact (.fin D) (.fin T) (.fin tau) dw nFull = .fin J ∧
      (J : ℝ) = Exact.fomIntegral D T tau dw nFull) ∧
    (∃ J : Rat, fomOf .signedTail .exact (.fin D) (.fin T) (.fin tau) dw nFull = .fin J ∧
      (J : ℝ) = Exact.unclippedSum D T tau dw nFull ∧
      (nFull * tau ≤ T → (J : ℝ) = Exact.fomIntegral D T tau dw nFull))

/-- R142 (default arithmetic): the figure of merit is never negative, and is 0 only for a span of 0. -/
def Obligations.MeritIsPositiveForEveryRamp : Prop :=
  ∀ (D T tau : Rat) (dw nFull : Int), 0 < T → 0 < tau → 0 ≤ nFull →
    ∃ J : Rat, fomOf .integral .exact (.fin D) (.fin T) (.fin tau) dw nFull = .fin J ∧ 0 ≤ J ∧ (J = 0 → D = 0)

/-- R154 (default arithmetic). A divider whose time step is not below the duration has one step and the delta word of the
whole span; where the time step is longer its figure of merit (R142) is `sigma²·T³/3` whatever its delta word, so these
dividers tie and none is picked over a lower one. And for a duration of at most 255 sync-clock cycles and a positive span
the FREQ divider 255 has delta word `ceil(D)` and `nFullCeil = 1`, survives the rising leg exactly when
`ceil(D) + S0s < 2^32`, and the rising leg then finds a candidate. -/
def Obligations.ShortFrequencyRampsAreFeasible : Prop :=
  (∀ (sync D T : Rat) (sh d : Nat), 0 < sync → 0 < T → T * sync ≤ d →
    Exact.steps sync T d = 1 ∧ Exact.deltaWord sync D T sh d = 2 ^ sh * ⌊(⌈D⌉ : Rat) / 2 ^ sh⌋ ∧
    (T < d / sync → ∀ dw nFull : Int, 0 ≤ nFull →
      fomOf .integral .exact (.fin D) (.fin T) (.fin (d / sync)) dw nFull = .fin ((D / T) ^ 2 * T ^ 3 / 3))) ∧
  (∀ (sync D S0s T : Rat) (sh : Nat) (rising : Bool) (c : Candidate) (d : Nat), 0 < sync →
    leg .exact (fomOf .integral .exact) sync (.fin D) (.fin S0s) (.fin T) sh rising = some c →
    T < c.d / sync → T < d / sync → Exact.Survives sync D S0s T sh rising d → c.d ≤ d) ∧
  ∀ (fom : Fom) (sync D S0s T : Rat), 0 < sync → 0 < T → T ≤ 255 / sync → 0 < D →
    Exact.deltaWord sync D T 0 255 = ⌈D⌉ ∧ ⌈D / (⌈D⌉ : Rat)⌉ = 1 ∧
    (Exact.Survives sync D S0s T 0 true 255 ↔ (⌈D⌉ : Rat) + S0s < 2 ^ 32) ∧
    ((⌈D⌉ : Rat) + S0s < 2 ^ 32 → leg .exact fom sync (.fin D) (.fin S0s) (.fin T) 0 true ≠ none)

/-- R155, R156 (default arithmetic). A delta word above the span takes no full step, its figure of merit is
`sigma²·T³/3` and its guard reads one step; this is so of every FREQ divider with one step over a span that is not an
integer, and such a candidate is valid: on the falling leg always, on the rising leg within the guard. A staircase whose
full steps run past `T` is integrated to `T` only (as if it had `floor(T/tau)` steps) and does not reach the end value by
`T`; and the masking of R136 gives such staircases, with more full steps than `steps` (the PHASE ramp of V-R3). -/
def Obligations.StaircasesThatDoNotFitTheSpan : Prop :=
  (∀ (D T tau : Rat) (dw : Int), 0 < T → 0 < tau → 0 < D → D < dw →
    ⌊D / (dw : Rat)⌋ = 0 ∧ ⌈D / (dw : Rat)⌉ = 1 ∧
      fomOf .integral .exact (.fin D) (.fin T) (.fin tau) dw 0 = .fin ((D / T) ^ 2 * T ^ 3 / 3)) ∧
  (∀ (sync D S0s T : Rat) (d : Nat), 0 < sync → 0 < T → T * sync ≤ d → d ≤ 255 → 0 < D → (∀ z : Int, D ≠ z) →
    D < Exact.deltaWord sync D T 0 d ∧ Exact.Survives sync D S0s T 0 false d ∧
      (Exact.Survives sync D S0s T 0 true d ↔ (Exact.deltaWord sync D T 0 d : Rat) + S0s < 2 ^ 32)) ∧
  (∀ (D T tau : Rat) (dw nFull : Int), 0 < T → 0 < tau → 0 < dw → nFull = ⌊D / (dw : Rat)⌋ → T < nFull * tau →
    fomOf .integral .exact (.fin D) (.fin T) (.fin tau) dw nFull =
        fomOf .integral .exact (.fin D) (.fin T) (.fin tau) dw ⌊T / tau⌋ ∧
      ∀ t : ℝ, t < T → Exact.stair tau dw nFull t < D) ∧
  (Exact.steps 125000000 (1 / 100000) 2 = 625 ∧ Exact.deltaWord 125000000 (2 ^ 31) (1 / 100000) 18 2 = 13 * 2 ^ 18 ∧
    ⌊(2 ^ 31 : Rat) / (13 * 2 ^ 18)⌋ = 630 ∧ (1 / 100000 : Rat) < 630 * (2 / 125000000))

/-- R162 (default arithmetic): scaling the figure of merit by a positive constant changes neither the divider nor the
delta word of a leg. -/
def Obligations.ScalingTheMeritChangesNothing : Prop :=
  ∀ (fom : Rat → Rat → Rat → Int → Int → Rat) (k sync D S0s T : Rat) (sh : Nat) (rising : Bool), 0 < k → 0 < sync →
    (leg .exact (liftFom fun D T tau dw nFull => k * fom D T tau dw nFull) sync (.fin D) (.fin S0s) (.fin T) sh
      rising).map (fun c => (c.d, c.dw)) =
    (leg .exact (liftFom fom) sync (.fin D) (.fin S0s) (.fin T) sh rising).map (fun c => (c.d, c.dw))

/-! ### Binary64 -/

/-- R161 (R132 to R143 under binary64): where the values of a turn are finite, each divider gives the candidate, or is
skipped or rejected, as computed in the order written with every operation rounded; where its values are finite, so is
the figure of merit, in R142's clipped form and in D7's unclipped form; and the leg picks, by comparison of binary64
values, a candidate that none is less than, the lowest divider of equals. The MODEL's: the unclipped form, its reading of
D7's words (R142's closed form at `m = nFull`; notes/assumptions/13.md); the rounding (8.md), the special values (11.md)
and the places where integers are rounded (12.md). -/
def Obligations.RampSearchRoundsInBinary64Order : Prop :=
  (∀ (fom : Fom) (sync D S0s T : Rat) (sh d : Nat) (rising : Bool) (r : Option (Rat × Int × Int)),
    Rounded.turn sync D S0s T sh rising d = some r →
    candidate .binary64 fom sync (.fin D) (.fin S0s) (.fin T) sh rising d =
      r.map fun (tau, dw, nFull) => ⟨d, dw, fom (.fin D) (.fin T) (.fin tau) dw nFull⟩) ∧
  (∀ (D T tau J : Rat) (dw nFull : Int),
    (Rounded.closed D T tau dw nFull = some J →
      fomOf .signedTail .binary64 (.fin D) (.fin T) (.fin tau) dw nFull = .fin J) ∧
    (∀ q, Rounded.quot T tau = some q → Rounded.closed D T tau dw (min nFull ⌊q⌋) = some J →
      fomOf .integral .binary64 (.fin D) (.fin T) (.fin tau) dw nFull = .fin J)) ∧
  ∀ (fom : Fom) (sync : Rat) (D S0s T : Quantity) (sh : Nat) (rising : Bool) (c : Candidate),
    (∀ d e, 1 ≤ d → d ≤ 255 → candidate .binary64 fom sync D S0s T sh rising d = some e → ∃ J, e.j = .fin J) →
    leg .binary64 fom sync D S0s T sh rising = some c →
    1 ≤ c.d ∧ c.d ≤ 255 ∧ candidate .binary64 fom sync D S0s T sh rising c.d = some c ∧
      ∀ d e, 1 ≤ d → d ≤ 255 → candidate .binary64 fom sync D S0s T sh rising d = some e →
        lt e.j c.j = false ∧ (e.j = c.j → c.d ≤ d)

/-- The MODEL's binary64 rounding (93_implementation_defined.md G1, notes/assumptions/8.md): a finite result is a binary64
number, no binary64 number is nearer to the exact value, and of two equally near it is the even multiple of their
distance; a binary64 number is its own rounding; the result is infinite, with the sign of the exact value, exactly from
`2^1024 − 2^970` on (half a last place above the largest number), and is always a number or infinite. -/
def Obligations.RoundingIsToNearestBinary64 : Prop :=
  (∀ q v : Rat, round64 q = .fin v → IsBinary64 v ∧
    ∀ r : Rat, IsBinary64 r → |q - v| ≤ |q - r| ∧
      (|q - v| = |q - r| → r ≠ v → ∃ k : Int, v = 2 * k * |v - r|)) ∧
  (∀ v : Rat, IsBinary64 v → round64 v = .fin v) ∧
  ∀ q : Rat, (∃ v, |q| < 2 ^ 1024 - 2 ^ 970 ∧ round64 q = .fin v) ∨
    (2 ^ 1024 - 2 ^ 970 ≤ |q| ∧ round64 q = .inf (decide (q < 0)))
end

