-- ==== Sys2Proof/Laws/Decode.lean ====
section
/-!
SUPPORT. The small lemmas of the decoder: reading each kind of operand, reading a header, and the header fields as
quotients and remainders of the header's number.
-/
namespace Sys2Proof

@[simp] theorem readWord_nil (k : Word → List Token → Decoded) : readWord [] k = .incomplete := rfl
@[simp] theorem readWord_word (w : Word) (ts : List Token) (k : Word → List Token → Decoded) :
    readWord (.word w :: ts) k = k w ts := rfl
@[simp] theorem readWord_quantity (x : Quantity) (ts : List Token) (k : Word → List Token → Decoded) :
    readWord (.quantity x :: ts) k = .refused .operandKind := rfl
@[simp] theorem readQuantity_nil (k : Rat → List Token → Decoded) : readQuantity [] k = .incomplete := rfl
@[simp] theorem readQuantity_ofRat (q : Rat) (ts : List Token) (k : Rat → List Token → Decoded) :
    readQuantity (.ofRat q :: ts) k = k q ts := rfl
@[simp] theorem readQuantity_word (w : Word) (ts : List Token) (k : Rat → List Token → Decoded) :
    readQuantity (.word w :: ts) k = .refused .operandKind := rfl

/-- A `Q` operand that is read is a finite quantity at the head of the port. -/
theorem readQuantity_ok {ts rest : List Token} {k : Rat → List Token → Decoded} {i : Instr}
    (h : readQuantity ts k = .ok i rest) : ∃ q ts', ts = .ofRat q :: ts' ∧ k q ts' = .ok i rest := by
  unfold readQuantity at h
  split at h
  · cases h
  · exact ⟨_, _, rfl, h⟩
  · cases h
  · cases h
  · cases h

/-- A `Word32` operand that is read is a word at the head of the port. -/
theorem readWord_ok {ts rest : List Token} {k : Word → List Token → Decoded} {i : Instr}
    (h : readWord ts k = .ok i rest) : ∃ w ts', ts = .word w :: ts' ∧ k w ts' = .ok i rest := by
  unfold readWord at h
  split at h
  · cases h
  · exact ⟨_, _, rfl, h⟩
  · cases h

theorem decode_of_header {h : Word} {hd : Header} (hh : decodeHeader h = some hd) (rest : List Token) :
    decode (.word h :: rest) = decodeOperands hd rest := by
  simp [decode, hh]

theorem decode_of_illegal {h : Word} (hh : decodeHeader h = none) (rest : List Token) :
    decode (.word h :: rest) = .illegal rest := by
  simp [decode, hh]

/-- A command that decodes stands behind a word that decodes as its header. -/
theorem decode_ok {ts rest : List Token} {i : Instr} (h : decode ts = .ok i rest) :
    ∃ w hd ts', ts = .word w :: ts' ∧ decodeHeader w = some hd ∧ decodeOperands hd ts' = .ok i rest := by
  unfold decode at h
  split at h
  · cases h
  · cases h
  · next w ts' =>
    split at h
    · cases h
    · next hd hh => exact ⟨w, hd, ts', rfl, hh, h⟩

theorem opcode_eq (h : Word) : Word.opcode h = h.toNat / 2 ^ 28 := by
  have := h.isLt
  simp only [Word.opcode, BitVec.extractLsb'_toNat, Nat.shiftRight_eq_div_pow]
  omega

theorem fieldA_eq (h : Word) : Word.fieldA h = h.toNat / 2 ^ 23 % 2 ^ 5 := by
  simp [Word.fieldA, BitVec.extractLsb'_toNat, Nat.shiftRight_eq_div_pow]

theorem fieldS_eq (h : Word) : Word.fieldS h = h.toNat % 2 ^ 5 := by
  simp [Word.fieldS, BitVec.extractLsb'_toNat]

theorem bit_eq (h : Word) (k : Nat) : h.getLsbD k = decide (h.toNat / 2 ^ k % 2 = 1) := by
  simp [BitVec.getLsbD, Nat.testBit_eq_decide_div_mod_eq]

theorem ifReservedZero_some {n : Nat} {rsv : BitVec n} {x hd : Header} :
    ifReservedZero rsv x = some hd ↔ rsv = 0 ∧ x = hd := by
  unfold ifReservedZero
  split <;> simp_all

theorem ifReservedZero_none {n : Nat} {rsv : BitVec n} {x : Header} :
    ifReservedZero rsv x = none ↔ rsv ≠ 0 := by
  unfold ifReservedZero
  split <;> simp_all

end Sys2Proof
end

