-- ==== Sys2Proof/Laws/State.lean ====
section
/-!
SUPPORT. The fields of the state after each update: one lemma per field per update, so that no later proof unfolds a
record update.
-/
namespace Sys2Proof.Machine

/-! ### `State.writeReg` -/

section
variable (s : State) (a : Addr) (w : Word)

@[simp] theorem State.writeReg_par : (s.writeReg a w).par = s.par := rfl
@[simp] theorem State.writeReg_cfg : (s.writeReg a w).cfg = s.cfg := rfl
@[simp] theorem State.writeReg_bank0 : (s.writeReg a w).bank0 = s.bankAfterWrite .ch0 a w := rfl
@[simp] theorem State.writeReg_bank1 : (s.writeReg a w).bank1 = s.bankAfterWrite .ch1 a w := rfl
@[simp] theorem State.writeReg_chen0 : (s.writeReg a w).chen0 = s.chen0 := rfl
@[simp] theorem State.writeReg_chen1 : (s.writeReg a w).chen1 = s.chen1 := rfl
@[simp] theorem State.writeReg_cfgPort : (s.writeReg a w).cfgPort = s.cfgPort := rfl
@[simp] theorem State.writeReg_rst : (s.writeReg a w).rst = s.rst := rfl
@[simp] theorem State.writeReg_cmd : (s.writeReg a w).cmd = s.cmd := rfl
@[simp] theorem State.writeReg_resp : (s.writeReg a w).resp = s.resp := rfl
@[simp] theorem State.writeReg_wev : (s.writeReg a w).wev = s.wev := rfl

end

/-! ### `State.setChen` -/

section
variable (s : State) (e0 e1 : Bool)

@[simp] theorem State.setChen_par : (s.setChen e0 e1).par = s.par := rfl
@[simp] theorem State.setChen_cfg : (s.setChen e0 e1).cfg = s.cfg := rfl
@[simp] theorem State.setChen_bank0 : (s.setChen e0 e1).bank0 = s.bank0 := rfl
@[simp] theorem State.setChen_bank1 : (s.setChen e0 e1).bank1 = s.bank1 := rfl
@[simp] theorem State.setChen_chen0 : (s.setChen e0 e1).chen0 = e0 := rfl
@[simp] theorem State.setChen_chen1 : (s.setChen e0 e1).chen1 = e1 := rfl
@[simp] theorem State.setChen_cfgPort : (s.setChen e0 e1).cfgPort = s.cfgPort := rfl
@[simp] theorem State.setChen_rst : (s.setChen e0 e1).rst = s.rst := rfl
@[simp] theorem State.setChen_cmd : (s.setChen e0 e1).cmd = s.cmd := rfl
@[simp] theorem State.setChen_resp : (s.setChen e0 e1).resp = s.resp := rfl
@[simp] theorem State.setChen_wev : (s.setChen e0 e1).wev = s.wev := rfl

end

/-! ### `State.emit` -/

section
variable (s : State) (a : Addr) (v : Word) (u : Bool)

@[simp] theorem State.emit_par : (s.emit a v u).par = s.par := rfl
@[simp] theorem State.emit_cfg : (s.emit a v u).cfg = s.cfg := rfl
@[simp] theorem State.emit_bank0 : (s.emit a v u).bank0 = s.bank0 := rfl
@[simp] theorem State.emit_bank1 : (s.emit a v u).bank1 = s.bank1 := rfl
@[simp] theorem State.emit_chen0 : (s.emit a v u).chen0 = s.chen0 := rfl
@[simp] theorem State.emit_chen1 : (s.emit a v u).chen1 = s.chen1 := rfl
@[simp] theorem State.emit_cfgPort : (s.emit a v u).cfgPort = s.cfgPort := rfl
@[simp] theorem State.emit_rst : (s.emit a v u).rst = s.rst := rfl
@[simp] theorem State.emit_cmd : (s.emit a v u).cmd = s.cmd := rfl
@[simp] theorem State.emit_resp : (s.emit a v u).resp = s.resp := rfl
@[simp] theorem State.emit_wev : (s.emit a v u).wev = s.wev ++ [⟨a, v, u⟩] := rfl

end

/-! ### `State.respond` -/

section
variable (s : State) (st : Status) (d : Data)

@[simp] theorem State.respond_par : (s.respond st d).par = s.par := rfl
@[simp] theorem State.respond_cfg : (s.respond st d).cfg = s.cfg := rfl
@[simp] theorem State.respond_bank0 : (s.respond st d).bank0 = s.bank0 := rfl
@[simp] theorem State.respond_bank1 : (s.respond st d).bank1 = s.bank1 := rfl
@[simp] theorem State.respond_chen0 : (s.respond st d).chen0 = s.chen0 := rfl
@[simp] theorem State.respond_chen1 : (s.respond st d).chen1 = s.chen1 := rfl
@[simp] theorem State.respond_cfgPort : (s.respond st d).cfgPort = s.cfgPort := rfl
@[simp] theorem State.respond_rst : (s.respond st d).rst = s.rst := rfl
@[simp] theorem State.respond_cmd : (s.respond st d).cmd = s.cmd := rfl
@[simp] theorem State.respond_resp : (s.respond st d).resp = s.resp ++ [⟨st, d⟩] := rfl
@[simp] theorem State.respond_wev : (s.respond st d).wev = s.wev := rfl

end

/-! ### `State.shadowWrite` -/

section
variable (s : State) (a : Addr) (w : Word) (u : Bool)

@[simp] theorem State.shadowWrite_par : (s.shadowWrite a w u).par = s.par := rfl
@[simp] theorem State.shadowWrite_cfg : (s.shadowWrite a w u).cfg = s.cfg := rfl
@[simp] theorem State.shadowWrite_bank0 : (s.shadowWrite a w u).bank0 = s.bankAfterWrite .ch0 a w := rfl
@[simp] theorem State.shadowWrite_bank1 : (s.shadowWrite a w u).bank1 = s.bankAfterWrite .ch1 a w := rfl
@[simp] theorem State.shadowWrite_chen0 : (s.shadowWrite a w u).chen0 = s.chen0 := rfl
@[simp] theorem State.shadowWrite_chen1 : (s.shadowWrite a w u).chen1 = s.chen1 := rfl
@[simp] theorem State.shadowWrite_cfgPort : (s.shadowWrite a w u).cfgPort = s.cfgPort := rfl
@[simp] theorem State.shadowWrite_rst : (s.shadowWrite a w u).rst = s.rst := rfl
@[simp] theorem State.shadowWrite_cmd : (s.shadowWrite a w u).cmd = s.cmd := rfl
@[simp] theorem State.shadowWrite_resp : (s.shadowWrite a w u).resp = s.resp ++ [⟨.ok, .none⟩] := rfl
@[simp] theorem State.shadowWrite_wev : (s.shadowWrite a w u).wev = s.wev ++ [⟨a, w, u⟩] := rfl

end

/-! ### `State.takeFault` -/

section
variable (s : State) (f : Fault)

@[simp] theorem State.takeFault_par : (s.takeFault f).par = s.par := rfl
@[simp] theorem State.takeFault_cfg : (s.takeFault f).cfg = s.cfg := rfl
@[simp] theorem State.takeFault_bank0 : (s.takeFault f).bank0 = s.bank0 := rfl
@[simp] theorem State.takeFault_bank1 : (s.takeFault f).bank1 = s.bank1 := rfl
@[simp] theorem State.takeFault_chen0 : (s.takeFault f).chen0 = s.chen0 := rfl
@[simp] theorem State.takeFault_chen1 : (s.takeFault f).chen1 = s.chen1 := rfl
@[simp] theorem State.takeFault_cfgPort : (s.takeFault f).cfgPort = s.cfgPort := rfl
@[simp] theorem State.takeFault_rst : (s.takeFault f).rst = s.rst := rfl
@[simp] theorem State.takeFault_cmd : (s.takeFault f).cmd = s.cmd := rfl
@[simp] theorem State.takeFault_resp : (s.takeFault f).resp = s.resp ++ [⟨f.status, .none⟩] := rfl
@[simp] theorem State.takeFault_wev : (s.takeFault f).wev = s.wev := rfl

end

/-! ### `State.loadReset` -/

section
variable (s : State) (c : ClockConfig)

@[simp] theorem State.loadReset_par : (s.loadReset c).par = s.par := rfl
@[simp] theorem State.loadReset_cfg : (s.loadReset c).cfg = c := rfl
@[simp] theorem State.loadReset_bank0 : (s.loadReset c).bank0 = s.par.bankReset0 := rfl
@[simp] theorem State.loadReset_bank1 : (s.loadReset c).bank1 = s.par.bankReset1 := rfl
@[simp] theorem State.loadReset_chen0 : (s.loadReset c).chen0 = s.par.chenReset0 := rfl
@[simp] theorem State.loadReset_chen1 : (s.loadReset c).chen1 = s.par.chenReset1 := rfl
@[simp] theorem State.loadReset_cfgPort : (s.loadReset c).cfgPort = s.cfgPort := rfl
@[simp] theorem State.loadReset_rst : (s.loadReset c).rst = false := rfl
@[simp] theorem State.loadReset_cmd : (s.loadReset c).cmd = s.cmd := rfl
@[simp] theorem State.loadReset_resp : (s.loadReset c).resp = s.resp := rfl
@[simp] theorem State.loadReset_wev : (s.loadReset c).wev = s.wev := rfl

end

/-! ### `State.present` -/

section
variable (s : State) (p : ClockPort) (r : Bool) (ts : List Token)

@[simp] theorem State.present_par : (s.present p r ts).par = s.par := rfl
@[simp] theorem State.present_cfg : (s.present p r ts).cfg = s.cfg := rfl
@[simp] theorem State.present_bank0 : (s.present p r ts).bank0 = s.bank0 := rfl
@[simp] theorem State.present_bank1 : (s.present p r ts).bank1 = s.bank1 := rfl
@[simp] theorem State.present_chen0 : (s.present p r ts).chen0 = s.chen0 := rfl
@[simp] theorem State.present_chen1 : (s.present p r ts).chen1 = s.chen1 := rfl
@[simp] theorem State.present_cfgPort : (s.present p r ts).cfgPort = p := rfl
@[simp] theorem State.present_rst : (s.present p r ts).rst = r := rfl
@[simp] theorem State.present_cmd : (s.present p r ts).cmd = s.cmd ++ ts := rfl
@[simp] theorem State.present_resp : (s.present p r ts).resp = s.resp := rfl
@[simp] theorem State.present_wev : (s.present p r ts).wev = s.wev := rfl

end

/-! ### `State.withFetchWord` -/

section
variable (s : State) (n w : Nat)

@[simp] theorem State.withFetchWord_par : (s.withFetchWord n w).par = s.par := rfl
@[simp] theorem State.withFetchWord_cfg : (s.withFetchWord n w).cfg = s.cfg := rfl
@[simp] theorem State.withFetchWord_bank0 : (s.withFetchWord n w).bank0 = s.bank0 := rfl
@[simp] theorem State.withFetchWord_bank1 : (s.withFetchWord n w).bank1 = s.bank1 := rfl
@[simp] theorem State.withFetchWord_chen0 : (s.withFetchWord n w).chen0 = s.chen0 := rfl
@[simp] theorem State.withFetchWord_chen1 : (s.withFetchWord n w).chen1 = s.chen1 := rfl
@[simp] theorem State.withFetchWord_cfgPort : (s.withFetchWord n w).cfgPort = s.cfgPort := rfl
@[simp] theorem State.withFetchWord_rst : (s.withFetchWord n w).rst = false := rfl
@[simp] theorem State.withFetchWord_cmd : (s.withFetchWord n w).cmd = tableTokens n w ++ s.cmd := rfl
@[simp] theorem State.withFetchWord_resp : (s.withFetchWord n w).resp = s.resp := rfl
@[simp] theorem State.withFetchWord_wev : (s.withFetchWord n w).wev = s.wev := rfl

end

/-! ### `State.word`, `State.enabled`, `State.cur` see only the banks and the enables -/

section
variable (s : State)

theorem State.word_eq_of_bank {s t : State} (h0 : t.bank0 = s.bank0) (h1 : t.bank1 = s.bank1) (c : Channel) (a : Addr) :
    t.word c a = s.word c a := by
  cases c <;> simp [State.word, State.bank, h0, h1]

theorem State.cur_eq_of_shadow {s t : State} (h0 : t.bank0 = s.bank0) (h1 : t.bank1 = s.bank1)
    (e0 : t.chen0 = s.chen0) (e1 : t.chen1 = s.chen1) (a : Addr) : t.cur a = s.cur a := by
  rw [State.cur, State.cur, word_eq_of_bank h0 h1, word_eq_of_bank h0 h1,
    show t.enabled .ch0 = s.enabled .ch0 from e0, show t.enabled .ch1 = s.enabled .ch1 from e1]

@[simp] theorem State.enabled_ch0 : s.enabled .ch0 = s.chen0 := rfl
@[simp] theorem State.enabled_ch1 : s.enabled .ch1 = s.chen1 := rfl
@[simp] theorem State.bank_ch0 : s.bank .ch0 = s.bank0 := rfl
@[simp] theorem State.bank_ch1 : s.bank .ch1 = s.bank1 := rfl

@[simp] theorem State.enabled_writeReg (c : Channel) (a : Addr) (w : Word) :
    (s.writeReg a w).enabled c = s.enabled c := by cases c <;> rfl
@[simp] theorem State.bank_writeReg (c : Channel) (a : Addr) (w : Word) :
    (s.writeReg a w).bank c = s.bankAfterWrite c a w := by cases c <;> rfl
@[simp] theorem State.word_emit (c : Channel) (b a : Addr) (v : Word) (u : Bool) :
    (s.emit a v u).word c b = s.word c b := by cases c <;> rfl
@[simp] theorem State.word_respond (c : Channel) (b : Addr) (st : Status) (d : Data) :
    (s.respond st d).word c b = s.word c b := by cases c <;> rfl
@[simp] theorem State.word_setChen (c : Channel) (b : Addr) (e0 e1 : Bool) :
    (s.setChen e0 e1).word c b = s.word c b := by cases c <;> rfl
@[simp] theorem State.word_shadowWrite (c : Channel) (b a : Addr) (w : Word) (u : Bool) :
    (s.shadowWrite a w u).word c b = (s.writeReg a w).word c b := by cases c <;> rfl
@[simp] theorem State.enabled_shadowWrite (c : Channel) (a : Addr) (w : Word) (u : Bool) :
    (s.shadowWrite a w u).enabled c = s.enabled c := by cases c <;> rfl

end

end Sys2Proof.Machine
end

