-- ==== Sys2Proof/Laws/Operands.lean ====
section
/-!
SUPPORT. The arithmetic of Machine/Operands.lean on finite values under `NUMERIC = exact`: every operation is the
rational one; and the integer primitives as integers.
-/
namespace Sys2Proof.Machine

theorem rnd_exact (q : Rat) : rnd .exact q = .fin q := rfl
theorem rnd_binary64 (q : Rat) : rnd .binary64 q = round64 q := rfl
theorem ofInt_exact (z : Int) : ofInt .exact z = .fin (z : Rat) := rfl
theorem add_exact (a b : Rat) : add .exact (.fin a) (.fin b) = .fin (a + b) := rfl
theorem sub_exact (a b : Rat) : sub .exact (.fin a) (.fin b) = .fin (a - b) := by
  simp [sub, neg, add_exact, sub_eq_add_neg]
theorem mul_exact (a b : Rat) : mul .exact (.fin a) (.fin b) = .fin (a * b) := rfl
theorem div_exact {a b : Rat} (hb : b ≠ 0) : div .exact (.fin a) (.fin b) = .fin (a / b) := by
  simp [div, hb, rnd_exact]
theorem div_fin (n : Numeric) {a b : Rat} (hb : b ≠ 0) : div n (.fin a) (.fin b) = rnd n (a / b) := by
  simp [div, hb]
theorem mul_fin (n : Numeric) (a b : Rat) : mul n (.fin a) (.fin b) = rnd n (a * b) := rfl
theorem sq_exact (a : Rat) : sq .exact (.fin a) = .fin (a ^ 2) := by simp [sq, mul_exact, pow_two]
theorem cube_exact (a : Rat) : cube .exact (.fin a) = .fin (a ^ 3) := by
  simp [cube, sq_exact, mul_exact, pow_succ]

@[simp] theorem lt_fin (a b : Rat) : lt (.fin a) (.fin b) = decide (a < b) := rfl
@[simp] theorem le_fin (a b : Rat) : le (.fin a) (.fin b) = decide (a ≤ b) := rfl
@[simp] theorem floor_fin (q : Rat) : floor (.fin q) = ⌊q⌋ := rfl
@[simp] theorem ceil_fin (q : Rat) : ceil (.fin q) = ⌈q⌉ := rfl
@[simp] theorem trunc_fin (q : Rat) : trunc (.fin q) = truncRat q := rfl

/-- `trunc` is `floor` on the non-negative and `ceil` on the negative rationals (R11, R91). -/
theorem truncRat_eq (q : Rat) : truncRat q = if 0 ≤ q then ⌊q⌋ else ⌈q⌉ := by
  unfold truncRat
  split
  · next h =>
    rw [Rat.floor_def']
    exact Int.tdiv_eq_ediv_of_nonneg (Rat.num_nonneg.mpr h)
  · next h =>
    have hq : q.num ≤ 0 := le_of_lt (Rat.num_neg.mpr (not_le.mp h))
    have h1 : ⌈q⌉ = -⌊-q⌋ := by rw [Int.floor_neg, neg_neg]
    rw [h1, Rat.floor_def']
    have : q.num.tdiv q.den = -((-q.num).tdiv q.den) := by rw [Int.neg_tdiv, neg_neg]
    rw [this, Int.tdiv_eq_ediv_of_nonneg (by omega)]
    simp

/-- `wrap_N(z)`, as an integer, is `z mod 2^N` (R11). -/
theorem wrap_toNat (n : Nat) (z : Int) : ((wrap n z).toNat : Int) = z % 2 ^ n := by
  unfold wrap
  have h : (0 : Int) ≤ z % 2 ^ n := Int.emod_nonneg _ (by positivity)
  rw [BitVec.toNat_ofInt]
  push_cast
  omega

/-- `sat_32(z)` as an integer (R11). -/
theorem sat32_toNat (z : Int) : ((sat32 z).toNat : Int) = min (max z 0) (2 ^ 32 - 1) := by
  unfold sat32
  rw [BitVec.toNat_ofInt]
  omega

/-- `floor_to` gives a multiple of its granularity, not above its argument (R11). -/
theorem floorTo_spec (x : Int) {g : Int} (hg : 0 < g) : g ∣ floorTo x g ∧ floorTo x g ≤ x ∧ x < floorTo x g + g := by
  refine ⟨⟨x / g, rfl⟩, ?_⟩
  have h1 := Int.emod_add_mul_ediv x g
  have h2 := Int.emod_nonneg x (ne_of_gt hg)
  have h3 := Int.emod_lt_of_pos x hg
  simp only [floorTo]
  constructor <;> linarith

/-- `floor_to` with the rule's own quotient `floor(x / g)` of rationals (R11). -/
theorem floorTo_eq (x : Int) {g : Int} (hg : 0 < g) : floorTo x g = g * ⌊(x : Rat) / g⌋ := by
  have := Rat.floor_intCast_div_natCast x g.toNat
  have hgn : ((g.toNat : Nat) : Int) = g := Int.toNat_of_nonneg hg.le
  have hq : ((g.toNat : Nat) : Rat) = (g : Rat) := by exact_mod_cast congrArg (Int.cast : Int → Rat) hgn
  rw [hq] at this
  rw [this, hgn]
  rfl

end Sys2Proof.Machine
end

