-- ==== Sys2Proof/Laws/Ops.lean ====
section
/-!
SUPPORT. One lemma per shared operation of Machine/Ops.lean that says all it can do; the inversion of `exec`, `deliver`
and `step` ("if it answers next, then one of these cases holds"), which later proofs cite instead of unfolding them.
-/
namespace Sys2Proof.Machine

/-! ### The address check -/

theorem withAddr_in (a : Addr) (k : Addr → Host.Outcome State Fault Refusal) : withAddr a.val k = k a := by
  simp [withAddr, a.isLt]

theorem withAddr_out {a : Nat} (h : 25 ≤ a) (k : Addr → Host.Outcome State Fault Refusal) :
    withAddr a k = .fault .addrRange := by
  simp [withAddr, Nat.not_lt.mpr h]

theorem withAddr_cases (a : Nat) (k : Addr → Host.Outcome State Fault Refusal) :
    (∃ b : Addr, a = b.val ∧ withAddr a k = k b) ∨ (25 ≤ a ∧ withAddr a k = .fault .addrRange) := by
  by_cases h : a < 25
  · exact .inl ⟨⟨a, h⟩, rfl, withAddr_in ⟨a, h⟩ k⟩
  · exact .inr ⟨Nat.not_lt.mp h, withAddr_out (Nat.not_lt.mp h) k⟩

/-! ### Writing a register -/

theorem isShared_iff (a : Addr) : isShared a = true ↔ a.val < 3 := by simp [isShared]

theorem targets_iff (s : State) (c : Channel) (a : Addr) :
    s.targets c a = true ↔ a.val < 3 ∨ s.enabled c = true := by
  simp [State.targets, isShared]

theorem word_writeReg (s : State) (a b : Addr) (w : Word) (c : Channel) :
    (s.writeReg a w).word c b = if b = a ∧ (a.val < 3 ∨ s.enabled c = true) then w else s.word c b := by
  simp only [State.word, State.bank_writeReg, State.bankAfterWrite, ← targets_iff]
  by_cases ht : s.targets c a = true
  · simp only [ht, if_true, and_true]
    rw [Vector.getElem_set]
    by_cases hb : b = a
    · simp [hb]
    · have : ¬ a.val = b.val := fun h => hb (Fin.ext h.symm)
      simp [hb, this]
  · simp [ht]

theorem word_writeReg_self (s : State) (a : Addr) (w : Word) (c : Channel) :
    (s.writeReg a w).word c a = if a.val < 3 ∨ s.enabled c = true then w else s.word c a := by
  simp [word_writeReg]

theorem word_writeReg_ne (s : State) {a b : Addr} (h : b ≠ a) (w : Word) (c : Channel) :
    (s.writeReg a w).word c b = s.word c b := by
  simp [word_writeReg, h]

/-- Two banks with the same words are the same bank. -/
theorem bank_ext {x y : Bank} (h : ∀ a : Addr, x[a.val]'a.isLt = y[a.val]'a.isLt) : x = y :=
  Vector.ext fun i hi => h ⟨i, hi⟩

theorem bank_ext_word {s t : State} (c : Channel) (h : ∀ a, s.word c a = t.word c a) : s.bank c = t.bank c :=
  bank_ext h

/-- A shared address is written into both banks, any other into the enabled ones (R103); so a write keeps the banks
equal at the shared addresses (R104). -/
theorem sharedEqual_iff (s : State) :
    SharedEqual s.bank0 s.bank1 ↔ ∀ a : Addr, a.val < 3 → s.word .ch0 a = s.word .ch1 a := by
  simp only [SharedEqual, isShared_iff]
  rfl

theorem sharedEqual_writeReg {s : State} (h : SharedEqual s.bank0 s.bank1) (a : Addr) (w : Word) :
    SharedEqual (s.writeReg a w).bank0 (s.writeReg a w).bank1 := by
  rw [sharedEqual_iff] at h ⊢
  intro b hb
  rw [word_writeReg, word_writeReg]
  by_cases hba : b = a
  · subst hba
    simp [hb]
  · simp [hba, h b hb]

/-! ### The merged current view (R26) -/

theorem cur_def (s : State) (a : Addr) :
    s.cur a = (if s.chen0 then s.word .ch0 a else 0) ||| (if s.chen1 then s.word .ch1 a else 0) := rfl

/-- After a write that reaches every enabled bank, the view is the written word, or 0 with no channel enabled. -/
theorem cur_writeReg (s : State) (a : Addr) (w : Word) :
    (s.writeReg a w).cur a = if s.chen0 || s.chen1 then w else 0 := by
  rw [cur_def, word_writeReg_self, word_writeReg_self]
  cases h0 : s.chen0 <;> cases h1 : s.chen1 <;> simp [h0, h1]

/-! ### The field merge (R109) -/

theorem merge_bit (cur m : Word) (sh : Nat) (v : Word) (k : Nat) (hk : k < 32) :
    (merge cur m sh v).getLsbD k = (cur.getLsbD k && !m.getLsbD k || (decide (sh ≤ k) && v.getLsbD (k - sh))) := by
  simp only [merge, BitVec.getLsbD_or, BitVec.getLsbD_and, BitVec.getLsbD_not, BitVec.getLsbD_shiftLeft, hk,
    decide_true, Bool.true_and]
  congr 2
  by_cases h : sh ≤ k
  · simp [h, Nat.not_lt.mpr h]
  · simp [h, Nat.lt_of_not_le h]

/-- Merging the same field twice is merging it once (R114). -/
theorem merge_merge (cur m : Word) (sh : Nat) (v : Word) : merge (merge cur m sh v) m sh v = merge cur m sh v := by
  apply BitVec.eq_of_getLsbD_eq
  intro k hk
  rw [merge_bit _ _ _ _ _ hk, merge_bit _ _ _ _ _ hk]
  cases cur.getLsbD k <;> cases m.getLsbD k <;> cases decide (sh ≤ k) <;> cases v.getLsbD (k - sh) <;> rfl

/-- `wrap_32(V << s)` as the low 32 bits of the product (R9, R109). -/
theorem shiftLeft_eq_ofNat (v : Word) (sh : Nat) : v <<< sh = BitVec.ofNat 32 (v.toNat * 2 ^ sh) := by
  apply BitVec.eq_of_toNat_eq
  simp [Nat.shiftLeft_eq]

/-! ### The configuration and reset (R190, R192) -/

theorem clockConfig_exact (p : ClockPort) (hr : 0 < p.refClk) (hm : 0 < p.pllMult) :
    clockConfig .exact p =
      some ⟨p.refClk, p.pllMult, p.refClk * p.pllMult, p.refClk * p.pllMult / 4⟩ := by
  have h4 : (4 : Rat) ≠ 0 := by norm_num
  have hs : 0 < p.refClk * p.pllMult := mul_pos hr hm
  simp [clockConfig, rnd_exact, mul_exact, div_exact h4, hr, hm, hs]

/-- A configuration that a reset loads is good (R6, R190). -/
theorem clockConfig_good {n : Numeric} {p : ClockPort} {c : ClockConfig} (h : clockConfig n p = some c) :
    ClockConfig.Good n c := by
  unfold clockConfig at h
  split at h
  · split at h
    · next hsys =>
      split at h
      · next hsync =>
        split at h
        · next hpos =>
          obtain rfl := Option.some.inj h
          exact ⟨hpos.1, hpos.2.1, hpos.2.2.1, hpos.2.2.2, hsys, hsync⟩
        · cases h
      · cases h
    · cases h
  · cases h

theorem acceptReset_cases {s t : State} (h : acceptReset s = .next t) :
    ∃ c, clockConfig s.par.numeric s.cfgPort = some c ∧ t = s.loadReset c := by
  unfold acceptReset at h
  split at h
  · next c hc => exact ⟨c, hc, (Host.Outcome.next.inj h).symm⟩
  · cases h

/-! ### What a command and a step can do -/

/-- SET_FIELD at an address that exists is the shadow write of its operand (R102). -/
theorem exec_setField_in (s : State) (a : Addr) (u : Bool) (v : Word) :
    exec (.setField a.val u v) s = .next (s.shadowWrite a v u) := by
  simp only [exec, execSetField, withAddr_in]

/-- RMW_FIELD at an address that exists is the shadow write of the merged word (R110). -/
theorem exec_rmwField_in (s : State) (a : Addr) (u : Bool) (sh : Nat) (m v : Word) :
    exec (.rmwField a.val u sh m v) s = .next (s.shadowWrite a (merge (s.cur a) m sh v) u) := by
  simp only [exec, execRmwField, withAddr_in]

/-- READ_CUR at an address that exists answers the merged view (R105). -/
theorem exec_readCur_in (s : State) (a : Addr) :
    exec (.readCur a.val) s = .next (s.respond .ok (.word (s.cur a))) := by
  simp only [exec, execReadCur, withAddr_in]

/-- A command that completes adds one response and nothing else, or sets the enables, or writes a register. -/
theorem exec_cases {i : Instr} {s t : State} (h : exec i s = .next t) :
    (∃ st d, t = s.respond st d) ∨
    (∃ e0 e1, i = .setChen e0 e1 ∧ t = (s.setChen e0 e1).respond .ok .none) ∨
    (∃ (a : Addr) (u : Bool) (v : Word), i = .setField a.val u v ∧ t = s.shadowWrite a v u) ∨
    (∃ (a : Addr) (u : Bool) (sh : Nat) (m v : Word), i = .rmwField a.val u sh m v ∧
      t = s.shadowWrite a (merge (s.cur a) m sh v) u) := by
  cases i with
  | encFreq x => exact .inl ⟨_, _, (Host.Outcome.next.inj h).symm⟩
  | encPhase x => exact .inl ⟨_, _, (Host.Outcome.next.inj h).symm⟩
  | encAmp x => exact .inl ⟨_, _, (Host.Outcome.next.inj h).symm⟩
  | setChen e0 e1 => exact .inr (.inl ⟨e0, e1, rfl, (Host.Outcome.next.inj h).symm⟩)
  | setField a u v =>
    obtain ⟨b, rfl, hk⟩ | ⟨-, hk⟩ := withAddr_cases a fun a => .next (s.shadowWrite a v u)
    · exact .inr (.inr (.inl ⟨b, u, v, rfl, (Host.Outcome.next.inj (hk.symm.trans h)).symm⟩))
    · cases hk.symm.trans h
  | readCur a =>
    obtain ⟨b, -, hk⟩ | ⟨-, hk⟩ := withAddr_cases a fun a => .next (s.respond .ok (.word (s.cur a)))
    · exact .inl ⟨_, _, (Host.Outcome.next.inj (hk.symm.trans h)).symm⟩
    · cases hk.symm.trans h
  | readBank c a =>
    obtain ⟨b, -, hk⟩ | ⟨-, hk⟩ := withAddr_cases a fun a => .next (s.respond .ok (.word (s.word c a)))
    · exact .inl ⟨_, _, (Host.Outcome.next.inj (hk.symm.trans h)).symm⟩
    · cases hk.symm.trans h
  | rmwField a u sh m v =>
    obtain ⟨b, rfl, hk⟩ | ⟨-, hk⟩ :=
      withAddr_cases a fun a => .next (s.shadowWrite a (merge (s.cur a) m sh v) u)
    · exact .inr (.inr (.inr ⟨b, u, sh, m, v, rfl, (Host.Outcome.next.inj (hk.symm.trans h)).symm⟩))
    · cases hk.symm.trans h
  | rampOpt t' s0 e0 tr tf =>
    simp only [exec, execRampOpt] at h
    split at h
    · cases h
    · exact .inl ⟨_, _, (Host.Outcome.next.inj h).symm⟩

/-- What the block makes of a command's outcome (R171). -/
theorem deliver_cases {s t : State} {o : Host.Outcome State Fault Refusal} (h : deliver s o = .next t) :
    o = .next t ∨ ∃ f, o = .fault f ∧ t = s.takeFault f := by
  cases o with
  | next u => exact .inl h
  | fault f => exact .inr ⟨f, rfl, (Host.Outcome.next.inj h).symm⟩
  | refused r => cases h

/-- What a step can do: a reset, a command that completes, a fault that is answered, or nothing. -/
theorem step_cases {s t : State} (h : step s = .next t) :
    (s.rst = true ∧ ∃ c, clockConfig s.par.numeric s.cfgPort = some c ∧ t = s.loadReset c) ∨
    (s.rst = false ∧ ∃ i rest, decode s.cmd = .ok i rest ∧ exec i { s with cmd := rest } = .next t) ∨
    (s.rst = false ∧ ∃ f rest, t = ({ s with cmd := rest } : State).takeFault f) ∨
    (s.rst = false ∧ t = s) := by
  unfold step at h
  split at h
  · next hr => exact .inl ⟨hr, acceptReset_cases h⟩
  · next hr =>
    have hr : s.rst = false := by simpa using hr
    split at h
    · next i rest hd =>
      obtain he | ⟨f, -, ht⟩ := deliver_cases h
      · exact .inr (.inl ⟨hr, i, rest, hd, he⟩)
      · exact .inr (.inr (.inl ⟨hr, f, rest, ht⟩))
    · next rest hd => exact .inr (.inr (.inl ⟨hr, .illegalOp, rest, (Host.Outcome.next.inj h).symm⟩))
    · exact .inr (.inr (.inr ⟨hr, (Host.Outcome.next.inj h).symm⟩))
    · cases h

/-- A step with a command on the port is the command's outcome, delivered. -/
theorem step_of_decode {s : State} {i : Instr} {rest : List Token} (hr : s.rst = false)
    (hd : decode s.cmd = .ok i rest) :
    step s = deliver { s with cmd := rest } (exec i { s with cmd := rest }) := by
  simp [step, hr, hd]

end Sys2Proof.Machine
end

