-- ==== Sys2Proof/Laws/PerInstr.lean ====
section
/-!
SUPPORT. A statement about every command as syntax, proved constructor by constructor: the header the encoder writes
matches its row of spec/opcode_table.json under the row's mask, and the operand items are of the kinds of R77.
-/
namespace Sys2Proof.Laws.HeaderMatchesTable

/-- The `mask` and `match` columns of opcode_table.json. -/
def row : Header → Word × Word
  | .encFreq => (0xFFFFFFFF, 0x10000000)
  | .encPhase => (0xFFFFFFFF, 0x20000000)
  | .encAmp => (0xFFFFFFFF, 0x30000000)
  | .setChen _ _ => (0xFFFFFFFC, 0x40000000)
  | .setField _ _ => (0xF03FFFFF, 0x50000000)
  | .readCur _ => (0xF07FFFFF, 0x60000000)
  | .readBank _ _ => (0xF05FFFFF, 0x70000000)
  | .rmwField _ _ _ => (0xF03FFFE0, 0x80000000)
  | .rampOpt _ => (0xF3FFFFFF, 0x90000000)

/-- The kind of an item of the command port. -/
def kindOf : Token → OperandKind
  | .word _ => .word
  | .quantity _ => .quantity

def Statement (i : Instr) : Prop :=
  i.wf = true → encodeHeader i.header &&& (row i.header).1 = (row i.header).2 ∧
    i.operands.map kindOf = i.header.operandKinds

theorem enc_row : encodeHeader .encFreq &&& 0xFFFFFFFF = 0x10000000 ∧ encodeHeader .encPhase &&& 0xFFFFFFFF = 0x20000000 ∧
    encodeHeader .encAmp &&& 0xFFFFFFFF = 0x30000000 := by decide
theorem rampOpt_row : encodeHeader (.rampOpt .none) &&& 0xF3FFFFFF = 0x90000000 ∧
    encodeHeader (.rampOpt .amp) &&& 0xF3FFFFFF = 0x90000000 ∧
    encodeHeader (.rampOpt .freq) &&& 0xF3FFFFFF = 0x90000000 ∧
    encodeHeader (.rampOpt .phase) &&& 0xF3FFFFFF = 0x90000000 := by decide
theorem setField_row : ∀ (a : Fin 32) (u : Bool),
    encodeHeader (.setField a.val u) &&& 0xF03FFFFF = 0x50000000 := by decide
theorem readCur_row : ∀ a : Fin 32, encodeHeader (.readCur a.val) &&& 0xF07FFFFF = 0x60000000 := by decide
theorem readBank_row : ∀ a : Fin 32,
    encodeHeader (.readBank .ch0 a.val) &&& 0xF05FFFFF = 0x70000000 ∧
    encodeHeader (.readBank .ch1 a.val) &&& 0xF05FFFFF = 0x70000000 := by decide
theorem rmwField_row : ∀ (a : Fin 32) (u : Bool) (sh : Fin 32),
    encodeHeader (.rmwField a.val u sh.val) &&& 0xF03FFFE0 = 0x80000000 := by decide +kernel

theorem fits5_iff {n : Nat} : fits5 n = true ↔ n < 32 := by simp [fits5]

theorem encFreq (x : Rat) : Statement (.encFreq x) := fun _ => ⟨enc_row.1, rfl⟩
theorem encPhase (x : Rat) : Statement (.encPhase x) := fun _ => ⟨enc_row.2.1, rfl⟩
theorem encAmp (x : Rat) : Statement (.encAmp x) := fun _ => ⟨enc_row.2.2, rfl⟩
theorem setChen (e0 e1 : Bool) : Statement (.setChen e0 e1) := fun _ => ⟨by cases e0 <;> cases e1 <;> decide, rfl⟩
theorem setField (a : Nat) (u : Bool) (v : Word) : Statement (.setField a u v) := fun h =>
  ⟨setField_row ⟨a, fits5_iff.mp h⟩ u, rfl⟩
theorem readCur (a : Nat) : Statement (.readCur a) := fun h => ⟨readCur_row ⟨a, fits5_iff.mp h⟩, rfl⟩
theorem readBank (c : Channel) (a : Nat) : Statement (.readBank c a) := fun h =>
  ⟨by cases c
      · exact (readBank_row ⟨a, fits5_iff.mp h⟩).1
      · exact (readBank_row ⟨a, fits5_iff.mp h⟩).2, rfl⟩
theorem rmwField (a : Nat) (u : Bool) (sh : Nat) (m v : Word) : Statement (.rmwField a u sh m v) := fun h =>
  have h' : fits5 a = true ∧ fits5 sh = true := by simpa [Instr.wf] using h
  ⟨rmwField_row ⟨a, fits5_iff.mp h'.1⟩ u ⟨sh, fits5_iff.mp h'.2⟩, rfl⟩
theorem rampOpt (t : RampType) (s0 e0 tr tf : Rat) : Statement (.rampOpt t s0 e0 tr tf) := fun _ =>
  ⟨by cases t <;> simp only [Instr.header, row, rampOpt_row], rfl⟩

end Sys2Proof.Laws.HeaderMatchesTable
end

