-- ==== Sys2Proof/Laws/Ramp.lean ====
section
/-!
SUPPORT. The parts of the ramp optimizer under `NUMERIC = exact`, on the rules' own rational terms, and what the choice
of the best candidate can answer.
-/
namespace Sys2Proof.Machine

/-! ### The parts of one candidate -/

theorem timeStep_exact {sync : Rat} (hs : 0 < sync) (d : Nat) : timeStep .exact sync d = .fin (d / sync) :=
  div_exact hs.ne'

theorem stepCount_exact {sync : Rat} (hs : 0 < sync) (T : Rat) {d : Nat} (hd : 1 ≤ d) :
    stepCount .exact (.fin T) (.fin (d / sync)) = Exact.steps sync T d := by
  have hd' : (0 : Rat) < d := by exact_mod_cast hd
  rw [stepCount, div_exact (div_pos hd' hs).ne', ceil_fin, Exact.steps, div_div_eq_mul_div]

theorem deltaWord_exact (sync D T : Rat) (sh d : Nat) (h : 0 < Exact.steps sync T d) :
    deltaWord .exact (.fin D) (Exact.steps sync T d) sh = Exact.deltaWord sync D T sh d := by
  have h' : (Exact.steps sync T d : Rat) ≠ 0 := by exact_mod_cast h.ne'
  rw [deltaWord, ofInt_exact, div_exact h', ceil_fin, floorTo_eq _ (by positivity), Exact.deltaWord]
  push_cast
  rfl

theorem overflows_exact (D S0s : Rat) {dw : Int} (h : 0 < dw) :
    overflows .exact (.fin D) (.fin S0s) dw = decide ((2 : Rat) ^ 32 ≤ dw * ⌈D / (dw : Rat)⌉ + S0s) := by
  have h' : (dw : Rat) ≠ 0 := by exact_mod_cast h.ne'
  simp only [overflows, ofInt_exact, div_exact h', ceil_fin, add_exact, le_fin]
  push_cast
  rfl

/-- One turn of the loop of R134 on rationals: the candidate exactly where the divider survives. -/
theorem candidate_exact (fom : Fom) {sync : Rat} (hs : 0 < sync) (D S0s T : Rat) (sh : Nat) (rising : Bool) {d : Nat}
    (h1 : 1 ≤ d) (h2 : d ≤ 255) :
    (Exact.Survives sync D S0s T sh rising d ∧
      candidate .exact fom sync (.fin D) (.fin S0s) (.fin T) sh rising d =
        some ⟨d, Exact.deltaWord sync D T sh d, fom (.fin D) (.fin T) (.fin (d / sync)) (Exact.deltaWord sync D T sh d)
          ⌊D / (Exact.deltaWord sync D T sh d : Rat)⌋⟩) ∨
    (¬ Exact.Survives sync D S0s T sh rising d ∧
      candidate .exact fom sync (.fin D) (.fin S0s) (.fin T) sh rising d = none) := by
  simp only [candidate, Exact.Survives, timeStep_exact hs, stepCount_exact hs T h1]
  by_cases hst : 0 < Exact.steps sync T d
  · rw [deltaWord_exact sync D T sh d hst]
    by_cases hdw : 0 < Exact.deltaWord sync D T sh d
    · have h' : (Exact.deltaWord sync D T sh d : Rat) ≠ 0 := by exact_mod_cast hdw.ne'
      rw [overflows_exact D S0s hdw, ofInt_exact, div_exact h', floor_fin]
      by_cases hg : rising = true → (Exact.deltaWord sync D T sh d : Rat) *
          ⌈D / (Exact.deltaWord sync D T sh d : Rat)⌉ + S0s < 2 ^ 32
      · refine .inl ⟨⟨h1, h2, hst, hdw, hg⟩, ?_⟩
        cases rising
        · simp [not_le.mpr hst, not_le.mpr hdw]
        · simp [not_le.mpr hst, not_le.mpr hdw, not_le.mpr (hg rfl)]
      · refine .inr ⟨fun h => hg h.2.2.2.2, ?_⟩
        rw [Classical.not_imp, not_lt] at hg
        simp [hg.1, hg.2]
    · exact .inr ⟨fun h => hdw h.2.2.2.1, by simp [not_lt.mp hdw]⟩
  · exact .inr ⟨fun h => hst h.2.2.1, by simp [not_lt.mp hst]⟩

/-! ### The best of a list of candidates (R143) -/

@[simp] theorem better_none (c : Option Candidate) : better none c = c := rfl
@[simp] theorem better_some_none (b : Candidate) : better (some b) none = some b := rfl
theorem better_some_some (b c : Candidate) : better (some b) (some c) = if lt c.j b.j then some c else some b := rfl

theorem better_eq_none (b c : Option Candidate) : better b c = none ↔ b = none ∧ c = none := by
  cases b <;> cases c <;> simp [better]
  split <;> simp

theorem mem_dividers {d : Nat} : d ∈ dividers ↔ 1 ≤ d ∧ d ≤ 255 := by
  rw [dividers, List.mem_range'_1]
  omega

/-- Going on with a best-so-far: the result is the best-so-far or the candidate of some divider of the list. -/
theorem foldl_better_mem (cand : Nat → Option Candidate) (ds : List Nat) :
    ∀ (b : Option Candidate) (c : Candidate), ds.foldl (fun best d => better best (cand d)) b = some c →
      b = some c ∨ ∃ d ∈ ds, cand d = some c := by
  induction ds with
  | nil => exact fun b c h => .inl h
  | cons d ds ih =>
    intro b c h
    rcases ih _ c h with hb | ⟨d', hd', hc⟩
    · cases b with
      | none => exact .inr ⟨d, by simp, by simpa using hb⟩
      | some b =>
        cases hcd : cand d with
        | none => exact .inl (by simpa [hcd] using hb)
        | some e =>
          simp only [hcd, better_some_some] at hb
          split at hb
          · exact .inr ⟨d, by simp, by rw [hcd, hb]⟩
          · exact .inl hb
    · exact .inr ⟨d', by simp [hd'], hc⟩

/-- There is a best unless nothing survives. -/
theorem foldl_better_none (cand : Nat → Option Candidate) (ds : List Nat) :
    ∀ b : Option Candidate, ds.foldl (fun best d => better best (cand d)) b = none ↔
      b = none ∧ ∀ d ∈ ds, cand d = none := by
  induction ds with
  | nil => simp
  | cons d ds ih =>
    intro b
    rw [List.foldl_cons, ih, better_eq_none, and_assoc, List.forall_mem_cons]

theorem bestOf_mem {cand : Nat → Option Candidate} {ds : List Nat} {c : Candidate} (h : bestOf cand ds = some c) :
    ∃ d ∈ ds, cand d = some c := by
  rcases foldl_better_mem cand ds none c h with h | h
  · cases h
  · exact h

theorem bestOf_none {cand : Nat → Option Candidate} {ds : List Nat} :
    bestOf cand ds = none ↔ ∀ d ∈ ds, cand d = none := by
  simp [bestOf, foldl_better_none]

/-- The best depends on the candidates of the list alone. -/
theorem bestOf_congr {f g : Nat → Option Candidate} {ds : List Nat} (h : ∀ d ∈ ds, f d = g d) :
    bestOf f ds = bestOf g ds :=
  List.foldl_ext _ _ _ fun best d hd => by rw [h d hd]

/-! ### The scaled endpoints (R132) -/

theorem rampScale_exact {sysClk : Rat} (h : 0 < sysClk) {t : RampType} (ht : t ≠ .none) :
    rampScale .exact sysClk t = .fin (Exact.scale sysClk t) := by
  cases t with
  | none => exact absurd rfl ht
  | amp => simp [rampScale, mul_exact, Exact.scale]
  | freq => simp [rampScale, div_exact h.ne', Exact.scale]
  | phase =>
    have : (360 : Rat) ≠ 0 := by norm_num
    rw [rampScale, div_exact this, mul_exact, Exact.scale]
    norm_num

theorem scaledEnd_exact {sysClk : Rat} (h : 0 < sysClk) {t : RampType} (ht : t ≠ .none) (x : Rat) :
    scaledEnd .exact sysClk t x = .fin (x * Exact.scale sysClk t) := by
  rw [scaledEnd, rampScale_exact h ht, rnd_exact, mul_exact]

theorem scale_pos {sysClk : Rat} (h : 0 < sysClk) {t : RampType} (ht : t ≠ .none) : 0 < Exact.scale sysClk t := by
  cases t with
  | none => exact absurd rfl ht
  | amp => norm_num [Exact.scale]
  | freq => exact div_pos (by norm_num) h
  | phase => norm_num [Exact.scale]

/-- The response of RAMP_OPT on rationals, from its two legs (R130). -/
theorem optimize_exact (fom : Fom) {cfg : ClockConfig} (h : 0 < cfg.sysClk) {t : RampType} (ht : t ≠ .none)
    (s0 e0 tr tf : Rat) :
    optimize .exact fom cfg t s0 e0 tr tf =
      rampResponse
        (leg .exact fom cfg.syncClk (.fin (e0 * Exact.scale cfg.sysClk t - s0 * Exact.scale cfg.sysClk t))
          (.fin (s0 * Exact.scale cfg.sysClk t)) (.fin tr) (rampShift t) true)
        (leg .exact fom cfg.syncClk (.fin (e0 * Exact.scale cfg.sysClk t - s0 * Exact.scale cfg.sysClk t))
          (.fin (s0 * Exact.scale cfg.sysClk t)) (.fin tf) (rampShift t) false) := by
  simp only [optimize, scaledEnd_exact h ht, sub_exact, rnd_exact]

/-- RAMP_OPT of a type other than none adds one response and nothing else (R149). -/
theorem exec_rampOpt {t : RampType} (ht : t ≠ .none) (s0 e0 tr tf : Rat) (s : State) :
    exec (.rampOpt t s0 e0 tr tf) s = .next (s.respond
      (optimize s.par.numeric (fomOf s.par.fom s.par.numeric) s.cfg t s0 e0 tr tf).status
      (optimize s.par.numeric (fomOf s.par.fom s.par.numeric) s.cfg t s0 e0 tr tf).data) :=
  if_neg ht

/-! ### The figure of merit (R142) -/

/-- The closed form of R142, on rationals, for `m` steps taken. -/
theorem fomClosed_exact (D : Rat) {T : Rat} (hT : T ≠ 0) (tau : Rat) (dw m : Int) :
    fomClosed .exact (.fin D) (.fin T) (.fin tau) dw m = .fin
      (let sigma := D / T
       let l := T - m * tau
       let e := sigma * tau - dw
       e ^ 2 * tau * m * (m - 1) * (2 * m - 1) / 6 + e * sigma * tau ^ 2 * m * (m - 1) / 2 +
         m * sigma ^ 2 * tau ^ 3 / 3 + m ^ 2 * e ^ 2 * l + m * e * sigma * l ^ 2 + sigma ^ 2 * l ^ 3 / 3) := by
  have h6 : (6 : Rat) ≠ 0 := by norm_num
  have h2 : (2 : Rat) ≠ 0 := by norm_num
  have h3 : (3 : Rat) ≠ 0 := by norm_num
  simp only [fomClosed, prod, List.foldl, div_exact hT, ofInt_exact, mul_exact, sub_exact, sq_exact, cube_exact,
    div_exact h6, div_exact h2, div_exact h3, add_exact]
  push_cast
  rfl

/-- The default figure of merit on rationals: the closed form for the steps clipped at `T` (R142). -/
theorem fomOf_integral_exact (D T : Rat) {tau : Rat} (ht : tau ≠ 0) (dw nFull : Int) :
    fomOf .integral .exact (.fin D) (.fin T) (.fin tau) dw nFull =
      fomClosed .exact (.fin D) (.fin T) (.fin tau) dw (min nFull ⌊T / tau⌋) := by
  simp only [fomOf, clippedSteps, div_exact ht, floor_fin]

theorem fomOf_signedTail (n : Numeric) (D T tau : Quantity) (dw nFull : Int) :
    fomOf .signedTail n D T tau dw nFull = fomClosed n D T tau dw nFull := rfl

theorem fomOf_given_exact (k : Nat) (D T tau : Rat) (dw nFull : Int) :
    fomOf (.given k) .exact (.fin D) (.fin T) (.fin tau) dw nFull = .fin (Config.fomExact k D T tau dw nFull) := rfl

/-- A divider survives only with a positive duration (R135). -/
theorem Exact.Survives.duration_pos {sync D S0s T : Rat} {sh d : Nat} {rising : Bool} (hs : 0 < sync)
    (h : Exact.Survives sync D S0s T sh rising d) : 0 < T := by
  by_contra hT
  have h1 : T * sync / d ≤ 0 := div_nonpos_of_nonpos_of_nonneg
    (mul_nonpos_of_nonpos_of_nonneg (not_lt.mp hT) hs.le) (by positivity)
  exact absurd h.2.2.1 (not_lt.mpr (Int.ceil_le.mpr (by exact_mod_cast h1)))

/-- A leg depends on its figure of merit only through positive durations and time steps. -/
theorem leg_exact_congr {f g : Fom} {sync D T : Rat} (hs : 0 < sync)
    (h : ∀ (tau : Rat) (dw nFull : Int), 0 < T → 0 < tau →
      f (.fin D) (.fin T) (.fin tau) dw nFull = g (.fin D) (.fin T) (.fin tau) dw nFull)
    (S0s : Rat) (sh : Nat) (rising : Bool) :
    leg .exact f sync (.fin D) (.fin S0s) (.fin T) sh rising =
      leg .exact g sync (.fin D) (.fin S0s) (.fin T) sh rising := by
  unfold leg
  refine bestOf_congr fun d hd => ?_
  obtain ⟨h1, h2⟩ := mem_dividers.mp hd
  have hd' : (0 : Rat) < d := by exact_mod_cast h1
  rcases candidate_exact f hs D S0s T sh rising h1 h2 with ⟨hv, hf⟩ | ⟨hv, hf⟩ <;>
    rcases candidate_exact g hs D S0s T sh rising h1 h2 with ⟨hw, hg⟩ | ⟨hw, hg⟩
  · rw [hf, hg, h _ _ _ (hv.duration_pos hs) (div_pos hd' hs)]
  · exact absurd hv hw
  · exact absurd hw hv
  · rw [hf, hg]

end Sys2Proof.Machine
end

