-- ==== Sys2Proof/Laws/Rounded.lean ====
section
/-!
SUPPORT. The arithmetic of Machine/Operands.lean on finite values under `NUMERIC = binary64`: where the rounded value of
Sys2Proof/Safety.lean is known, the operation answers it.
-/
namespace Sys2Proof.Machine

theorem rounded_value_eq_some {q v : Rat} : Rounded.value q = some v ↔ round64 q = .fin v := by
  unfold Rounded.value
  split <;> simp_all

theorem rounded_quot_eq_some {a b v : Rat} : Rounded.quot a b = some v ↔ b ≠ 0 ∧ round64 (a / b) = .fin v := by
  unfold Rounded.quot
  split <;> simp_all [rounded_value_eq_some]

theorem rnd_rounded {q v : Rat} (h : Rounded.value q = some v) : rnd .binary64 q = .fin v := rounded_value_eq_some.mp h
theorem ofInt_rounded {z : Int} {v : Rat} (h : Rounded.value (z : Rat) = some v) : ofInt .binary64 z = .fin v :=
  rounded_value_eq_some.mp h
theorem mul_rounded {a b v : Rat} (h : Rounded.value (a * b) = some v) : mul .binary64 (.fin a) (.fin b) = .fin v :=
  rounded_value_eq_some.mp h
theorem add_rounded {a b v : Rat} (h : Rounded.value (a + b) = some v) : add .binary64 (.fin a) (.fin b) = .fin v :=
  rounded_value_eq_some.mp h
theorem sub_rounded {a b v : Rat} (h : Rounded.value (a - b) = some v) : sub .binary64 (.fin a) (.fin b) = .fin v := by
  rw [sub_eq_add_neg] at h
  exact rounded_value_eq_some.mp h
theorem div_rounded {a b v : Rat} (h : Rounded.quot a b = some v) : div .binary64 (.fin a) (.fin b) = .fin v := by
  obtain ⟨h1, h2⟩ := rounded_quot_eq_some.mp h
  rw [div_fin _ h1]
  exact h2

/-- A product from the left answers its rounded value. -/
theorem prod_rounded : ∀ (ys : List Rat) {x v : Rat}, Rounded.prod x ys = some v →
    prod .binary64 (.fin x) (ys.map .fin) = .fin v
  | [], x, v, h => by
    cases h
    rfl
  | y :: ys, x, v, h => by
    obtain ⟨z, h1, h2⟩ := Option.bind_eq_some_iff.mp h
    have := prod_rounded ys h2
    simp only [prod, List.map_cons, List.foldl_cons] at this ⊢
    rw [mul_rounded h1]
    exact this

/-- The scale of a ramp type answers its rounded value (R66). -/
theorem rampScale_rounded {sysClk k : Rat} {t : RampType} (h : Rounded.scale sysClk t = some k) :
    rampScale .binary64 sysClk t = .fin k := by
  cases t with
  | none => cases h
  | amp => exact mul_rounded h
  | freq => exact div_rounded h
  | phase =>
    obtain ⟨p, h1, h2⟩ := Option.bind_eq_some_iff.mp h
    rw [rampScale, div_rounded h1]
    exact mul_rounded h2

/-- The guard of R139 compares the rounded left side. -/
theorem overflows_rounded {D S0s g : Rat} {dw : Int} (h : Rounded.guard D S0s dw = some g) :
    overflows .binary64 (.fin D) (.fin S0s) dw = decide ((2 : Rat) ^ 32 ≤ g) := by
  unfold Rounded.guard at h
  simp only [bind, Option.bind_eq_some_iff] at h
  obtain ⟨w, h1, n, h2, p, h3, h4⟩ := h
  rw [overflows, ofInt_rounded h1, div_rounded h2, ceil_fin, ofInt_rounded h3, add_rounded h4, le_fin]

end Sys2Proof.Machine
end

