-- ==== Sys2Proof/Laws/Rounding.lean ====
section
/-!
SUPPORT. What each part of the binary64 rounding of Machine/Operands.lean answers: the nearest integer, the leading
bit's exponent, and a magnitude in units of the last place.
-/
namespace Sys2Proof.Machine

/-- `roundEven` is an integer within half of the quotient. -/
theorem roundEven_spec (num : Nat) {den : Nat} (hd : 0 < den) :
    2 * num ≤ (2 * roundEven num den + 1) * den ∧ 2 * roundEven num den * den ≤ 2 * num + den := by
  have h1 := Nat.div_add_mod num den
  have h2 := Nat.mod_lt num hd
  have e0 : ∀ q : Nat, (2 * q + 1) * den = 2 * (den * q) + den ∧ 2 * q * den = 2 * (den * q) :=
    fun q => ⟨by ring, by ring⟩
  have e1 : den * (num / den + 1) = den * (num / den) + den := by ring
  unfold roundEven
  split
  · rw [(e0 _).1, (e0 _).2]; omega
  · split
    · rw [(e0 _).1, (e0 _).2, e1]; omega
    · split
      · rw [(e0 _).1, (e0 _).2]; omega
      · rw [(e0 _).1, (e0 _).2, e1]; omega

/-- `2^e` as the quotient of naturals that the comparisons use. -/
theorem two_zpow_eq (e : Int) : (2 : Rat) ^ e = 2 ^ e.toNat / 2 ^ (-e).toNat := by
  rcases le_total 0 e with h | h
  · have h1 : (-e).toNat = 0 := by omega
    rw [h1, pow_zero, div_one]
    conv_lhs => rw [← Int.toNat_of_nonneg h]
    exact zpow_natCast _ _
  · have h1 : e.toNat = 0 := by omega
    have h2 : e = -((-e).toNat : Int) := by omega
    rw [h1, pow_zero, one_div]
    conv_lhs => rw [h2]
    rw [zpow_neg, zpow_natCast]

theorem twoPowLe_iff (num : Nat) {den : Nat} (hd : 0 < den) (e : Int) :
    twoPowLe num den e = true ↔ (2 : Rat) ^ e ≤ (num : Rat) / den := by
  have hd' : (0 : Rat) < den := by exact_mod_cast hd
  rw [twoPowLe, decide_eq_true_iff, two_zpow_eq, div_le_div_iff₀ (by positivity) hd']
  rw [mul_comm]
  exact_mod_cast Iff.rfl

/-- `floorLog2` is the exponent of the leading bit. -/
theorem floorLog2_spec {num den : Nat} (hn : 0 < num) (hd : 0 < den) :
    (2 : Rat) ^ floorLog2 num den ≤ (num : Rat) / den ∧ (num : Rat) / den < (2 : Rat) ^ (floorLog2 num den + 1) := by
  have hd' : (0 : Rat) < den := by exact_mod_cast hd
  have n1 : (2 : Rat) ^ (Nat.log2 num : Int) ≤ num := by
    rw [zpow_natCast]; exact_mod_cast Nat.log2_self_le hn.ne'
  have n2 : (num : Rat) < 2 ^ ((Nat.log2 num : Int) + 1) := by
    have : num < 2 ^ (Nat.log2 num + 1) := Nat.lt_log2_self
    rw [show ((Nat.log2 num : Int) + 1) = ((Nat.log2 num + 1 : Nat) : Int) by push_cast; rfl, zpow_natCast]
    exact_mod_cast this
  have d1 : (2 : Rat) ^ (Nat.log2 den : Int) ≤ den := by
    rw [zpow_natCast]; exact_mod_cast Nat.log2_self_le hd.ne'
  have d2 : (den : Rat) < 2 ^ ((Nat.log2 den : Int) + 1) := by
    have : den < 2 ^ (Nat.log2 den + 1) := Nat.lt_log2_self
    rw [show ((Nat.log2 den : Int) + 1) = ((Nat.log2 den + 1 : Nat) : Int) by push_cast; rfl, zpow_natCast]
    exact_mod_cast this
  have two : (2 : Rat) ≠ 0 := two_ne_zero
  have lo : (2 : Rat) ^ ((Nat.log2 num : Int) - Nat.log2 den - 1) ≤ (num : Rat) / den := by
    rw [le_div_iff₀ hd']
    calc (2 : Rat) ^ ((Nat.log2 num : Int) - Nat.log2 den - 1) * den
        ≤ 2 ^ ((Nat.log2 num : Int) - Nat.log2 den - 1) * 2 ^ ((Nat.log2 den : Int) + 1) :=
          mul_le_mul_of_nonneg_left d2.le (by positivity)
      _ = 2 ^ (Nat.log2 num : Int) := by rw [← zpow_add₀ two]; congr 1; ring
      _ ≤ num := n1
  have hi : (num : Rat) / den < 2 ^ ((Nat.log2 num : Int) - Nat.log2 den + 1) := by
    rw [div_lt_iff₀ hd']
    calc (num : Rat) < 2 ^ ((Nat.log2 num : Int) + 1) := n2
      _ = 2 ^ ((Nat.log2 num : Int) - Nat.log2 den + 1) * 2 ^ (Nat.log2 den : Int) := by
          rw [← zpow_add₀ two]; congr 1; ring
      _ ≤ 2 ^ ((Nat.log2 num : Int) - Nat.log2 den + 1) * den := mul_le_mul_of_nonneg_left d1 (by positivity)
  unfold floorLog2
  by_cases h : twoPowLe num den ((Nat.log2 num : Int) - Nat.log2 den) = true
  · simp only [h, if_true]
    exact ⟨(twoPowLe_iff num hd _).mp h, hi⟩
  · simp only [h]
    have h' := h
    rw [twoPowLe_iff num hd, not_le] at h'
    exact ⟨lo, by simpa using h'⟩

theorem ofUnits_eq (k : Nat) (u : Int) : ofUnits k u = k * (2 : Rat) ^ u := by
  rw [ofUnits, two_zpow_eq]
  ring

/-- `unitsOf` is an integer within half of the value in units of `2^u`. -/
theorem unitsOf_spec (num : Nat) {den : Nat} (hd : 0 < den) (u : Int) :
    |(num : Rat) / den / 2 ^ u - unitsOf num den u| ≤ 1 / 2 := by
  have hd' : (0 : Rat) < den := by exact_mod_cast hd
  have hden : 0 < den * 2 ^ u.toNat := by positivity
  obtain ⟨h1, h2⟩ := roundEven_spec (num * 2 ^ (-u).toNat) hden
  have e : (num : Rat) / den / 2 ^ u = (num * 2 ^ (-u).toNat : Nat) / (den * 2 ^ u.toNat : Nat) := by
    rw [two_zpow_eq]
    push_cast
    field_simp
  have hq : (0 : Rat) < (den * 2 ^ u.toNat : Nat) := by exact_mod_cast hden
  rw [e, unitsOf]
  generalize roundEven (num * 2 ^ (-u).toNat) (den * 2 ^ u.toNat) = k at h1 h2
  generalize num * 2 ^ (-u).toNat = x at h1 h2
  generalize den * 2 ^ u.toNat = y at h1 h2 hq
  have h1' : 2 * (x : Rat) ≤ (2 * k + 1) * y := by exact_mod_cast h1
  have h2' : 2 * (k : Rat) * y ≤ 2 * x + y := by exact_mod_cast h2
  rw [abs_le]
  constructor
  · rw [le_sub_iff_add_le, le_div_iff₀ hq]; linarith
  · rw [sub_le_iff_le_add, div_le_iff₀ hq]; linarith

end Sys2Proof.Machine
end

