-- ==== Sys2Proof/Tests/Slice0.lean ====
section
/-!
SUPPORT. The model's own tests. Expected results come from the tables of 95_test_vectors.md (the vector is named in each
comment) or are worked by hand from the rule named. After them, one witness for the hypotheses of each statement of
Certificates/Slice0/Obligations.lean.
-/
namespace Sys2Proof.Tests
open Sys2Proof.Machine

/-- The default state of the vectors with one command on its port (SYS_CLK 500 MHz, banks 0, both channels enabled). -/
def with1 (i : Instr) : State := { State.reset with cmd := encode i }

/-- The default state with the two enables set. -/
def enabled (e0 e1 : Bool) : State := { State.reset with chen0 := e0, chen1 := e1 }

/-- The default state with `x` and `y` in the two banks at address `a`. -/
def holding (a : Addr) (x y : Word) : State :=
  { State.reset with
    bank0 := State.reset.bank0.set a.val x a.isLt
    bank1 := State.reset.bank1.set a.val y a.isLt }

/-- `s` with a command on its port. -/
def onPort (s : State) (ts : List Token) : State := { s with cmd := ts }

/-- The state after one step, where the step gives one. -/
def stepped (s : State) : Option State :=
  match step s with
  | .next t => some t
  | .fault _ => none
  | .refused _ => none

/-- The newest response after performing `i` in `s` by one step. -/
def answer (s : State) (i : Instr) : Option Response := (stepped (onPort s (encode i))).bind fun t => t.resp.getLast?

/-- The two banks' words at `a`, and the newest event, after performing `i` in `s` by one step. -/
def effect (s : State) (i : Instr) (a : Addr) : Option (Word × Word × Option WrEvt) :=
  (stepped (onPort s (encode i))).map fun t => (t.word .ch0 a, t.word .ch1 a, t.wev.getLast?)

/-- The decoder's reading of a header that stands alone or before these items. -/
def reads (ts : List Token) (i : Instr) : Bool := decide (decode ts = .ok i [])

/-! ### WellFormed: each check refuses an ill-formed command -/

theorem test_wf_setField_address : Instr.wf (.setField 32 false 0) = false ∧ Instr.wf (.setField 31 false 0) = true := by
  decide
theorem test_wf_readCur_address : Instr.wf (.readCur 32) = false := by decide
theorem test_wf_readBank_address : Instr.wf (.readBank .ch1 32) = false := by decide
theorem test_wf_rmwField_address : Instr.wf (.rmwField 32 false 0 0 0) = false := by decide
theorem test_wf_rmwField_shift : Instr.wf (.rmwField 0 false 32 0 0) = false := by decide
theorem test_wf_header : Header.wf (.rmwField 0 false 32) = false ∧ Header.wf (.readCur 32) = false := by decide

/-! ### Decoding: words written out from the formats of R57 to R59 (95_test_vectors.md section 5, and its programs) -/

theorem test_decode_encFreq : reads [.word 0x10000000, .ofRat 50000000] (.encFreq 50000000) = true := by decide +kernel
theorem test_decode_encPhase : reads [.word 0x20000000, .ofRat 45] (.encPhase 45) = true := by decide +kernel
theorem test_decode_encAmp : reads [.word 0x30000000, .ofRat 1] (.encAmp 1) = true := by decide +kernel
-- P1 row 1 and P2 row 3: `e0` is bit 0
theorem test_decode_setChen : reads [.word 0x40000001] (.setChen true false) = true ∧
    reads [.word 0x40000002] (.setChen false true) = true := by decide
-- P3 row 9: `0x55C00000` is `A = 11`, `U = 1`
theorem test_decode_setField : reads [.word 0x55C00000, .word 0x19999999] (.setField 11 true 0x19999999) = true := by
  decide
theorem test_decode_readCur : reads [.word 0x64800000] (.readCur 9) = true := by decide
-- P1 row 8
theorem test_decode_readBank : reads [.word 0x72200000] (.readBank .ch1 4) = true := by decide
-- P1 row 5: the mask comes before the value
theorem test_decode_rmwField : reads [.word 0x80400008, .word 0x300, .word 2] (.rmwField 0 true 8 0x300 2) = true := by
  decide
-- the operand order of R77: S0, E0, TR, TF
theorem test_decode_rampOpt : reads [.word 0x94000000, .ofRat 1, .ofRat 2, .ofRat 3, .ofRat 4] (.rampOpt .amp 1 2 3 4) = true ∧
    reads [.word 0x9C000000, .ofRat 1, .ofRat 2, .ofRat 3, .ofRat 4] (.rampOpt .phase 1 2 3 4) = true := by
  decide +kernel
-- V-E32, V-S21, V-S22 and section 5: reserved opcodes and reserved bits
theorem test_decode_reserved : [0x00000000, 0xA0000000, 0xF0000000, 0x10000001, 0x40000004, 0x50000001, 0x64C00000,
    0x61C00000, 0x72E00000, 0x80000020, 0x90000001, 0x9C000100].all (fun h => decodeHeader h == none) = true := by
  decide
-- a whole operand list must have arrived, in its kinds
theorem test_decode_refuses : decode [.word 0x80400008, .word 0x300] = .incomplete ∧
    decode [.ofRat 1] = .refused .headerKind ∧ decode [.word 0x50000000, .ofRat 1] = .refused .operandKind ∧
    decode [.word 0x10000000, .quantity .nan] = .refused .nonFinite := by decide +kernel
-- opcode_table.json's READ_BANK row, and a row followed by its operand word
theorem test_decodeTableWord : decodeTableWord 32 0x72A00000 = some (.readBank .ch1 5) ∧
    decodeTableWord 32 0x84C0001F = some (.rmwField 9 true 31 0 0) ∧ decodeTableWord 32 0xA0000000 = none ∧
    decodeTableWord 32 0x98000000 = some (.rampOpt .freq 0 0 0 0) := by decide +kernel
-- R72's own example and P3 row 3
theorem test_pseudo : pseudoWriteSubfield 7 15 8 1 false = .rmwField 7 false 8 0xFF00 1 ∧
    pseudoApplyWrite 11 0x19999999 = .setField 11 true 0x19999999 := by decide

/-! ### The encoders -/

-- V-E4 and V-E9
theorem test_encFreq : answer State.reset (.encFreq 50000000) = some ⟨.ok, .word 0x19999999⟩ := by decide +kernel
theorem test_encFreq_negative : answer State.reset (.encFreq (-1)) = some ⟨.ok, .word 0xFFFFFFF8⟩ := by decide +kernel
-- V-E18 and V-E21
theorem test_encPhase : answer State.reset (.encPhase (35999 / 100)) = some ⟨.ok, .word14 0x3FFF⟩ := by decide +kernel
theorem test_encPhase_negative : answer State.reset (.encPhase (-90)) = some ⟨.ok, .word14 0x3000⟩ := by decide +kernel
-- V-E29 and V-E31
theorem test_encAmp_wraps : answer State.reset (.encAmp (1001 / 1000)) = some ⟨.ok, .word10 0⟩ := by decide +kernel
theorem test_encAmp_negative : answer State.reset (.encAmp (-1 / 1000)) = some ⟨.ok, .word10 0x3FF⟩ := by decide +kernel

/-! ### The register shadow -/

-- V-S9: the second bit of the pair is channel 1's
theorem test_setChen : (stepped (with1 (.setChen false true))).map (fun t => (t.chen0, t.chen1)) = some (false, true) := by
  decide +kernel
-- V-S3 and V-S5
theorem test_setField_one_channel : effect (enabled false true) (.setField 4 false 0xAB) 4 =
    some (0, 0xAB, some ⟨4, 0xAB, false⟩) := by decide +kernel
theorem test_setField_shared : effect (enabled false false) (.setField 2 false 0xAB) 2 =
    some (0xAB, 0xAB, some ⟨2, 0xAB, false⟩) := by decide +kernel
-- V-S8, and V-S19's neighbour among the faults: address 25
theorem test_readCur_merges : answer (holding 5 0x0F 0xF0) (.readCur 5) = some ⟨.ok, .word 0xFF⟩ := by decide +kernel
theorem test_readCur_address : answer State.reset (.readCur 25) = some ⟨.addrRange, .none⟩ := by decide +kernel
-- V-S7's reading of one bank, and V-S20
theorem test_readBank : answer (holding 9 1 2) (.readBank .ch1 9) = some ⟨.ok, .word 2⟩ := by decide +kernel
theorem test_readBank_address : answer State.reset (.readBank .ch0 31) = some ⟨.addrRange, .none⟩ := by decide +kernel
-- V-S11 and V-S13
theorem test_rmwField_merges : effect (holding 9 1 2) (.rmwField 9 false 4 0xF0 5) 9 =
    some (0x53, 0x53, some ⟨9, 0x53, false⟩) := by decide +kernel
theorem test_rmwField_shifts_out : effect State.reset (.rmwField 6 false 31 0x80000000 3) 6 =
    some (0x80000000, 0x80000000, some ⟨6, 0x80000000, false⟩) := by decide +kernel

/-! ### The ramp optimizer -/

-- V-R2: the delta word's granularity, and dividers that are skipped
theorem test_rampOpt_amp : answer State.reset (.rampOpt .amp 0 1 (1 / 100000) (3 / 100000)) =
    some ⟨.ok, .ramp 38 130023424 11 12582912⟩ := by decide +kernel
-- V-R5: the guard on the rising leg only, and a tie
theorem test_rampOpt_guard : answer State.reset
    (.rampOpt .freq 0 (500000000 * (2 ^ 32 - 1) / 2 ^ 32) (16 / 1000000000) (16 / 1000000000)) =
    some ⟨.ok, .ramp 2 4294967295 1 2147483648⟩ := by decide +kernel
-- V-R10b at `d = 2`: the staircase is clipped at `T`, and D7's other form is not
theorem test_merit_clipped : fomOf .integral .exact (.fin 10) (.fin (5 / 2)) (.fin 2) 5 2 = .fin (305 / 6) := by
  decide +kernel
-- by hand from R142 with `m = 2`, `L = −3/2`, `e = 3`: 128/3 + (66 + 128/3) − 18
theorem test_merit_unclipped : fomOf .signedTail .exact (.fin 10) (.fin (5 / 2)) (.fin 2) 5 2 = .fin (400 / 3) := by
  decide +kernel
-- V-E32, V-R9g and P4 row 1: what the decoder rejects is answered, and the block goes on
theorem test_step_illegal : (stepped (onPort State.reset [.word 0x90000001, .word 0x60000000])).map
    (fun t => (t.resp, t.cmd)) = some ([⟨.illegalOp, .none⟩], [.word 0x60000000]) := by decide +kernel

/-! ### Reset and binary64 -/

-- R190 with REF_CLK = 10 and PLL_MULT = 4
theorem test_reset : (stepped { State.reset with rst := true, cfgPort := ⟨10, 4⟩ }).map (fun t => (t.cfg, t.rst)) =
    some (⟨10, 4, 40, 10⟩, false) := by decide +kernel
-- 1/10 is 0x1.999999999999Ap-4 in IEEE 754 binary64
theorem test_round64 : round64 (1 / 10) = .fin (0x1999999999999A / 2 ^ 56) := by decide +kernel
theorem test_round64_ties : round64 (2 ^ 53 + 1) = .fin (2 ^ 53) ∧ round64 (2 ^ 53 + 3) = .fin (2 ^ 53 + 4) := by
  decide +kernel

/-! ### Witnesses: for each statement, a state and operands that meet its hypotheses together -/

/-- The default state with binary64 arithmetic. -/
def binary : State := { State.reset with par := { State.reset.par with numeric := .binary64 } }

/-- The default state with a reset requested and these clocks presented. -/
def resetting (ref pll : Rat) : State := { State.reset with rst := true, cfgPort := ⟨ref, pll⟩ }

/-- A leg's figure of merit for the witnesses: the time step. -/
def byTimeStep : Rat → Rat → Rat → Int → Int → Rat := fun _ _ tau _ _ => tau

theorem witness_ResetStepLoadsParameters :
    ((resetting 10 4).rst = true ∧ (resetting 10 4).par.numeric = .exact ∧ (resetting 10 4).cfgPort = ⟨10, 4⟩ ∧
      (40 : Rat) = 10 * 4 ∧ (10 : Rat) = 40 / 4 ∧ (0 : Rat) < 10 ∧ (0 : Rat) < 4) ∧
    (resetting 10 4).cfgPort.refClk = 10 ∧ (resetting 10 4).cfgPort.pllMult = 4 ∧ binary.par.numeric = .binary64 ∧
      { binary with rst := true, cfgPort := (resetting 10 4).cfgPort }.rst = true ∧
      round64 10 = .fin 10 ∧ round64 4 = .fin 4 ∧ round64 (10 * 4) = .fin 40 ∧ round64 (40 / 4) = .fin 10 := by
  decide +kernel

theorem witness_NonPositiveClockResetRefused :
    ((resetting 0 4).rst = true ∧ (resetting 0 4).cfgPort.refClk ≤ 0) ∧
    ((resetting 10 0).rst = true ∧ (resetting 10 0).cfgPort.pllMult ≤ 0) := by decide +kernel

theorem witness_StepKeepsInvariant : (with1 (.setField 2 false 7)).Inv ∧
    ∃ t, step (with1 (.setField 2 false 7)) = .next t := ⟨by decide +kernel, _, rfl⟩

theorem witness_SharedAddressesEqualInReachableStates : (2 : Addr).val < 3 ∧ ∃ s : State, s.Reachable ∧
    s.cmd = [.word 0x41000000] :=
  ⟨by decide, _, .presented _ ⟨10, 4⟩ false [.word 0x41000000]
    (.constructed State.reset.par State.reset.cfgPort State.reset.cfg (by decide +kernel) (by decide +kernel)), rfl⟩

theorem witness_OnlyResetChangesConfiguration : (with1 (.readCur 0)).rst = false ∧
    ∃ t, step (with1 (.readCur 0)) = .next t := ⟨rfl, _, rfl⟩

theorem witness_DecodeOfEncodeIsTheCommand : Instr.wf (.rmwField 31 true 31 0xFFFFFFFF 0xFFFFFFFF) = true ∧
    Instr.wf (.rampOpt .phase (-1) (1 / 3) 0 (2 ^ 40)) = true := by decide +kernel

theorem witness_DecodedItemsAreTheEncoding :
    decode [.word 0x5FC00000, .word 9, .word 0x41000000] = .ok (.setField 31 true 9) [.word 0x41000000] := by decide

theorem witness_HeaderFaultsExactlyWhenReserved : decodeHeader 0xA0000000 = none ∧ decodeHeader 0x40000004 = none ∧
    decodeHeader 0x40000003 ≠ none := by decide

theorem witness_StepRunsTheDecodedCommand :
    (with1 (.readCur 24)).rst = false ∧ decode (with1 (.readCur 24)).cmd = .ok (.readCur 24) [] ∧
      (∃ t, exec (.readCur 24) { with1 (.readCur 24) with cmd := [] } = .next t) ∧
    decode (with1 (.readCur 25)).cmd = .ok (.readCur 25) [] ∧
      exec (.readCur 25) { with1 (.readCur 25) with cmd := [] } = .fault .addrRange :=
  ⟨rfl, rfl, ⟨_, rfl⟩, rfl, rfl⟩

theorem witness_IllegalHeaderAnswersIllegalOp : IllegalHeader 0xA0000000 ∧ IllegalHeader 0x40000004 ∧
    (onPort State.reset [.word 0x40000004]).rst = false ∧
    (onPort State.reset [.word 0x40000004]).cmd = .word 0x40000004 :: [] :=
  ⟨trivial, show (0x40000004 : Word) &&& 0x0FFFFFFC ≠ 0 by decide, rfl, rfl⟩

theorem witness_AddressOutOfRangeAnswersAddrRange : (24 < 25 ∧ 31 < 32 ∧ 24 < 31) ∧ State.reset.rst = false ∧
    ∃ s : State, s.rst = false ∧ s.cmd = encode (.rmwField 25 true 31 0 0) ++ [.word 0x41000000] :=
  ⟨by decide, rfl, onPort State.reset (encode (.rmwField 25 true 31 0 0) ++ [.word 0x41000000]), rfl, rfl⟩

theorem witness_RampTypeNoneAnswersBadRampType : (with1 (.rampOpt .none 0 1 1 1)).rst = false ∧
    (with1 (.rampOpt .none 0 1 1 1)).cmd = encode (.rampOpt .none 0 1 1 1) ++ [] := ⟨rfl, rfl⟩

theorem witness_IdleBlockHoldsItsState : State.reset.rst = false ∧ State.reset.cmd = [] := ⟨rfl, rfl⟩

theorem witness_UnpresentableItemsAreRefused : State.reset.rst = false ∧
    (decodeHeader 0x10000000 = some .encFreq ∧ Header.operandKinds .encFreq = [] ++ .quantity :: [] ∧
      List.Forall₂ Presentable [] [] ∧ ∀ q, Quantity.nan ≠ .fin q) ∧
    (decodeHeader 0x84C0001F = some (.rmwField 9 true 31) ∧
      Header.operandKinds (.rmwField 9 true 31) = [.word] ++ .word :: [] ∧
      List.Forall₂ Presentable [.word] [.word 1]) ∧
    (decodeHeader 0x98000000 = some (.rampOpt .freq) ∧
      Header.operandKinds (.rampOpt .freq) = [.quantity, .quantity, .quantity] ++ .quantity :: [] ∧
      List.Forall₂ Presentable [.quantity, .quantity, .quantity] [.ofRat 0, .ofRat 1, .ofRat 1]) :=
  ⟨rfl, ⟨by decide, rfl, .nil, by simp⟩, ⟨by decide, rfl, .cons trivial .nil⟩, by decide, rfl,
    .cons trivial (.cons trivial (.cons trivial .nil))⟩

theorem witness_EncFreqAnswersTuningWord : State.reset.par.numeric = .exact ∧ 0 < State.reset.cfg.sysClk := by
  decide +kernel

theorem witness_EncPhaseAnswersTuningWord : State.reset.par.numeric = .exact := rfl

theorem witness_EncAmpAnswersTuningWord : (enabled false false).par.numeric = .exact := rfl

theorem witness_EncodersComputeInBinary64Order : binary.par.numeric = .binary64 ∧
    (round64 500000000 = .fin 500000000 ∧ binary.cfg.sysClk ≠ 0 ∧ round64 (500000000 / binary.cfg.sysClk) = .fin 1 ∧
      round64 (1 * 2 ^ 32) = .fin (2 ^ 32)) ∧
    (round64 (500000000 * 2 ^ 994) = .fin (500000000 * 2 ^ 994) ∧
      round64 (500000000 * 2 ^ 994 / binary.cfg.sysClk) = .fin (2 ^ 994) ∧ round64 (2 ^ 994 * 2 ^ 32) = .inf false) ∧
    (round64 180 = .fin 180 ∧ round64 (180 / 360) = .fin (1 / 2) ∧ round64 (1 / 2 * 2 ^ 14) = .fin 8192) ∧
    (round64 (1 / 2) = .fin (1 / 2) ∧ round64 (1 / 2 * 1023) = .fin (1023 / 2)) ∧
    (round64 (2 ^ 1020) = .fin (2 ^ 1020) ∧ round64 (2 ^ 1020 * 1023) = .inf false) ∧
    (round64 (-2 ^ 1024) = .inf true ∧ 0 < binary.cfg.sysClk) := by decide +kernel

theorem witness_EncodersLoseLessThanOneQuantum : State.reset.par.numeric = .exact ∧ (0 : Rat) ≤ 0 ∧
    0 < State.reset.cfg.sysClk ∧ (0 : Rat) ≤ State.reset.cfg.sysClk * (2 ^ 32 - 1) / 2 ^ 32 ∧
    (0 ≤ (35999 / 100 : Rat) ∧ (35999 / 100 : Rat) < 360) ∧ (0 ≤ (1 : Rat) ∧ (1 : Rat) ≤ 1) := by decide +kernel

theorem witness_EncodersWrapNegativeValues : State.reset.par.numeric = .exact ∧
    ((-1 : Rat) < 0 ∧ 0 < State.reset.cfg.sysClk ∧ -2 ^ 32 < -1 / State.reset.cfg.sysClk * 2 ^ 32) ∧
    ((-359 : Rat) < 0 ∧ -2 ^ 14 < (-359 : Rat) / 360 * 2 ^ 14) ∧
    ((-1 / 2000 : Rat) < 0 ∧ -2 ^ 10 < (-1 / 2000 : Rat) * 1023 ∧ -1 < (-1 / 2000 : Rat) * 1023) := by decide +kernel

theorem witness_EncodersArePure : (enabled false true).par.numeric = State.reset.par.numeric ∧
    (enabled false true).cfg.sysClk = State.reset.cfg.sysClk := by decide +kernel

theorem witness_SetFieldWritesTargetedBanks : 24 < 25 ∧ (24 : Addr).val = 24 := by decide

theorem witness_ReadCurAnswersMergedView : 24 < 25 ∧ (24 : Addr).val = 24 := by decide

theorem witness_ReadBankAnswersBankWord : 24 < 25 ∧ SharedEqual (holding 2 7 7).bank0 (holding 2 7 7).bank1 ∧
    (2 : Addr).val < 3 := by decide

theorem witness_RmwFieldWritesMergedWord : 31 < 32 ∧ 24 < 25 ∧ (24 : Addr).val = 24 := by decide

theorem witness_RmwFieldMergesBitByBit : 31 < 32 ∧ (0 : Addr).val < 3 := by decide

theorem witness_RmwFieldCopiesDivergentBits : (holding 9 1 2).chen0 = true ∧ (holding 9 1 2).chen1 = true ∧ 4 < 32 := by
  decide

theorem witness_NoChannelWritesDiscardOldBits : (enabled false false).chen0 = false ∧
    (enabled false false).chen1 = false ∧ 8 < 32 ∧ 3 ≤ (3 : Addr).val ∧ (2 : Addr).val < 3 := by decide

theorem witness_MaskedWritesAreIdempotent : 8 < 32 ∧ ∃ i : Instr,
    i = .rmwField (5 : Addr).val true 8 0xF00 3 ∨ i = .setField (5 : Addr).val true 3 := ⟨by decide, _, .inl rfl⟩

theorem witness_DisjointMaskedWritesCommute : 0 < 32 ∧ 8 < 32 ∧ State.reset.chen0 = true ∧
    (0xF : Word) &&& 0xF00 = 0 ∧ ((9 : Word) <<< 0) &&& ~~~(0xF : Word) = 0 ∧
    ((3 : Word) <<< 8) &&& ~~~(0xF00 : Word) = 0 := by decide

theorem witness_NoChannelSharedWritesDoNotCommute : (enabled false false).chen0 = false ∧
    (enabled false false).chen1 = false ∧ 0 < 32 ∧ (2 : Addr).val < 3 := by decide

theorem witness_SharedWriteMakesBanksEqual : (2 : Addr).val < 3 ∧ 31 < 32 ∧ ∃ i : Instr,
    i = .rmwField (2 : Addr).val true 31 1 1 ∨ i = .setField (2 : Addr).val true 1 := ⟨by decide, by decide, _, .inr rfl⟩

theorem witness_ApplyFlagReachesOnlyTheEvent : 0 < 32 ∧ ∃ i i' : Instr,
    (i = .rmwField (4 : Addr).val true 0 1 1 ∧ i' = .rmwField (4 : Addr).val false 0 1 1) ∨
      (i = .setField (4 : Addr).val true 1 ∧ i' = .setField (4 : Addr).val false 1) :=
  ⟨by decide, _, _, .inl ⟨rfl, rfl⟩⟩

theorem witness_RmwFieldIsReadThenSetField : 0 < 32 ∧ 31 < 32 := by decide

theorem witness_WriteSubfieldReplacesOnlyItsBits : (8 ≤ 15 ∧ 15 ≤ 31 ∧ (0xFF : Word).toNat < 2 ^ (15 - 8 + 1)) ∧
    (0 ≤ 31 ∧ 31 ≤ 31 ∧ (0xFFFFFFFF : Word).toNat < 2 ^ (31 - 0 + 1)) := by decide

theorem witness_CommandsWriteOnlyTheirOwnState :
    (∃ t, exec (.setField 4 true 1) State.reset = .next t ∧ t.wev ≠ State.reset.wev) ∧
    (∃ t, exec (.setChen false true) State.reset = .next t ∧ t.chen0 ≠ State.reset.chen0) :=
  ⟨⟨_, rfl, by decide⟩, _, rfl, by decide⟩

theorem witness_StepAppendsOneResponseAtMostOneEvent : ∃ t, step (with1 (.setField 4 true 1)) = .next t ∧ t.wev ≠ [] :=
  ⟨_, rfl, by decide⟩

theorem witness_CommandsIgnoreOutputHistory :
    ∃ s' t : State, s'.par = State.reset.par ∧ s'.cfg = State.reset.cfg ∧ s'.bank0 = State.reset.bank0 ∧
      s'.bank1 = State.reset.bank1 ∧ s'.chen0 = State.reset.chen0 ∧ s'.chen1 = State.reset.chen1 ∧
      s'.resp ≠ State.reset.resp ∧ exec (.rmwField 4 true 0 1 1) State.reset = .next t :=
  ⟨{ State.reset with resp := [⟨.ok, .none⟩] }, _, rfl, rfl, rfl, rfl, rfl, rfl, by simp [State.reset], rfl⟩

theorem witness_RampOptOnlyResponds : RampType.amp ≠ .none ∧ (onPort State.reset [.word 0]).par = State.reset.par ∧
    (onPort State.reset [.word 0]).cfg = State.reset.cfg := ⟨by decide, rfl, rfl⟩

-- both legs found (V-R1), the rising leg not found (V-R7), the falling leg not found (V-R9b)
theorem witness_RampOptAnswersFromItsLegs : RampType.freq ≠ .none ∧ State.reset.par.numeric = .exact ∧
    0 < State.reset.cfg.sysClk ∧
    let K := Exact.scale State.reset.cfg.sysClk .freq
    (leg .exact (fomOf .integral .exact) State.reset.cfg.syncClk (.fin (50000000 * K - 0 * K)) (.fin (0 * K))
      (.fin (1 / 100000)) 0 true).isSome = true ∧
    (leg .exact (fomOf .integral .exact) State.reset.cfg.syncClk (.fin (50000000 * K - 0 * K)) (.fin (0 * K))
      (.fin (3 / 100000)) 0 false).isSome = true ∧
    leg .exact (fomOf .integral .exact) State.reset.cfg.syncClk (.fin (50000000 * K - 50000000 * K))
      (.fin (50000000 * K)) (.fin (1 / 100000)) 0 true = none ∧
    leg .exact (fomOf .integral .exact) State.reset.cfg.syncClk (.fin (50000000 * K - 0 * K)) (.fin (0 * K))
      (.fin 0) 0 false = none := by decide +kernel

-- the binary64 premises, at the ends of V-R1 and of a phase ramp
theorem witness_RampOptAnswersFromItsLegs_binary64 : binary.par.numeric = .binary64 ∧ 0 < binary.cfg.sysClk ∧
    (Rounded.ends binary.cfg.sysClk .freq 0 50000000).isSome = true ∧
    (Rounded.ends binary.cfg.sysClk .phase 0 180).isSome = true ∧
    (Rounded.ends binary.cfg.sysClk .amp 0 1).isSome = true ∧
    (Rounded.value (1 / 100000)).isSome = true ∧ (Rounded.value (3 / 100000)).isSome = true := by decide +kernel

theorem witness_LegPicksLeastMeritLowestDivider : (0 : Rat) < 1 ∧
    leg .exact (liftFom byTimeStep) 1 (.fin 10) (.fin 0) (.fin 3) 0 true = some ⟨1, 4, .fin 1⟩ ∧
    Exact.Survives 1 10 0 3 0 true 255 := by
  unfold Exact.Survives; decide +kernel

theorem witness_LegFailsExactlyWithoutSurvivor : (0 : Rat) < 1 ∧
    leg .exact (liftFom byTimeStep) 1 (.fin 0) (.fin 0) (.fin 3) 0 true = none ∧
    leg .exact (liftFom byTimeStep) 1 (.fin 10) (.fin 0) (.fin 3) 2 false = some ⟨1, 4, .fin 1⟩ := by decide +kernel

theorem witness_OkRampResultsAreValid : State.reset.par.numeric = .exact ∧
    ClockConfig.Good .exact State.reset.cfg ∧
    ∃ t, exec (.rampOpt .phase 0 180 (1 / 100000) (3 / 100000)) State.reset = .next t ∧
      t.resp = State.reset.resp ++ [⟨.ok, .ramp 2 3407872 11 6291456⟩] :=
  ⟨rfl, by decide +kernel, _, rfl, by decide +kernel⟩

theorem witness_RampThatDoesNotRiseFails : RampType.freq ≠ .none ∧ State.reset.par.numeric = .exact ∧
    ClockConfig.Good .exact State.reset.cfg ∧ (50000000 : Rat) ≤ 50000000 := by decide +kernel

theorem witness_NonPositiveDurationsFail : RampType.freq ≠ .none ∧ State.reset.par.numeric = .exact ∧
    ClockConfig.Good .exact State.reset.cfg ∧ (0 : Rat) ≤ 0 ∧
    Exact.Survives State.reset.cfg.syncClk ((50000000 - 0) * Exact.scale State.reset.cfg.sysClk .freq)
      (0 * Exact.scale State.reset.cfg.sysClk .freq) (1 / 100000) (rampShift .freq) true 1 := by
  unfold Exact.Survives; decide +kernel

-- V-R6 meets the second disjunct, SYS_CLK itself the first
theorem witness_RampToTheTopIsInfeasible : RampType.freq ≠ .none ∧ State.reset.par.numeric = .exact ∧
    ClockConfig.Good .exact State.reset.cfg ∧
    2 ^ 32 ≤ 500000000 * Exact.scale State.reset.cfg.sysClk .freq ∧
    ((∃ z : Int, 0 * Exact.scale State.reset.cfg.sysClk .freq = z) ∧
      2 ^ 32 - 1 < 500000000 * (2 ^ 32 - 1 / 2) / 2 ^ 32 * Exact.scale State.reset.cfg.sysClk .freq) :=
  ⟨by decide, rfl, by decide +kernel, by decide +kernel, ⟨0, by simp⟩, by decide +kernel⟩

theorem witness_FallingLegHasNoOverflowGuard : (0 : Rat) < 1 ∧ 1 ≤ 255 ∧ 255 ≤ 255 ∧
    candidate .exact (liftFom byTimeStep) 1 (.fin (2 ^ 33)) (.fin 0) (.fin 3) 0 false 255 =
      some ⟨255, 2 ^ 33, .fin 255⟩ ∧
    candidate .exact (liftFom byTimeStep) 1 (.fin 0) (.fin 0) (.fin 3) 0 false 1 = none := by decide +kernel

-- V-R10b at `d = 2`
theorem witness_ClosedFormIsTheIntegral : (0 : Rat) < 5 / 2 ∧ (0 : Rat) < 2 ∧ (0 : Int) ≤ 2 ∧ (0 : Int) ≤ 1 ∧
    (((1 : Int) : Rat) * 2 ≤ 5 / 2) := by decide +kernel

theorem witness_MeritIsPositiveForEveryRamp : (0 : Rat) < 3 ∧ (0 : Rat) < 1 ∧ (0 : Int) ≤ 0 := by decide +kernel

theorem witness_ShortFrequencyRampsAreFeasible :
    ((0 : Rat) < 1 ∧ (0 : Rat) < 1 / 2 ∧ (1 / 2 * 1 : Rat) ≤ (1 : Nat) ∧ (1 / 2 : Rat) < (1 : Nat) / 1 ∧ (0 : Int) ≤ 0) ∧
    ((leg .exact (fomOf .integral .exact) 1 (.fin 10) (.fin 0) (.fin (1 / 2)) 0 true).map (fun c => c.d) = some 1 ∧
      Exact.Survives 1 10 0 (1 / 2) 0 true 2) ∧
    ((0 : Rat) < 1 ∧ (0 : Rat) < 255 ∧ (255 : Rat) ≤ 255 / 1 ∧ (0 : Rat) < 10 ∧
      (⌈(10 : Rat)⌉ : Rat) + (2 ^ 32 - 11) < 2 ^ 32 ∧ ¬ (⌈(10 : Rat)⌉ : Rat) + (2 ^ 32 - 10) < 2 ^ 32) := by
  unfold Exact.Survives; decide +kernel

theorem witness_ScalingTheMeritChangesNothing : (0 : Rat) < 1 / 3 ∧ (0 : Rat) < 125000000 := by decide +kernel

-- the numbers of V-R3's rising leg at `d = 2` meet the third clause
theorem witness_StaircasesThatDoNotFitTheSpan :
    ((0 : Rat) < 1 ∧ (0 : Rat) < 1 ∧ (0 : Rat) < 1 / 2 ∧ (1 / 2 : Rat) < (1 : Int)) ∧
    ((0 : Rat) < 1 ∧ (0 : Rat) < 1 / 2 ∧ (1 / 2 * 1 : Rat) ≤ (255 : Nat) ∧ ∀ z : Int, (1 / 2 : Rat) ≠ z) ∧
    ((630 : Int) = ⌊(2 ^ 31 : Rat) / ((13 * 2 ^ 18 : Int) : Rat)⌋ ∧
      (1 / 100000 : Rat) < ((630 : Int) : Rat) * (2 / 125000000)) := by
  refine ⟨by decide +kernel, ⟨by norm_num, by norm_num, by norm_num, fun z h => ?_⟩, by decide +kernel⟩
  have h1 : ((1 : Int) : Rat) = ((2 * z : Int) : Rat) := by push_cast; linarith
  have h2 : (1 : Int) = 2 * z := by exact_mod_cast h1
  omega

-- V-R10a at `d = 1`, V-R10c's rejected divider, a skipped one, and a leg whose merits are finite
theorem witness_RampSearchRoundsInBinary64Order :
    Rounded.turn 1 10 0 3 0 true 1 = some (some (1, 4, 2)) ∧
    Rounded.turn 1 10 (2 ^ 32 - 12) 3 0 true 1 = some none ∧ Rounded.turn 1 10 0 0 0 true 1 = some none ∧
    (Rounded.closed 10 3 1 4 2).isSome = true ∧
    (Rounded.quot 3 1 = some 3 ∧ (Rounded.closed 10 3 1 4 (min 2 ⌊(3 : Rat)⌋)).isSome = true) ∧
    (leg .binary64 (liftFom byTimeStep) 1 (.fin 10) (.fin 0) (.fin 3) 0 true).map (fun c => (c.d, c.dw)) = some (1, 4) :=
  by decide +kernel

theorem witness_RoundingIsToNearestBinary64 : round64 (1 / 2) = .fin (1 / 2) ∧ IsBinary64 (1 / 2) ∧
    round64 (2 ^ 53 + 1) = .fin (2 ^ 53) ∧ IsBinary64 (2 ^ 53 + 2) ∧
    |(2 ^ 53 + 1 : Rat) - 2 ^ 53| = |(2 ^ 53 + 1 : Rat) - (2 ^ 53 + 2)| ∧ (2 ^ 53 + 2 : Rat) ≠ 2 ^ 53 :=
  ⟨by decide +kernel, ⟨1, -1, by norm_num⟩, by decide +kernel, ⟨2 ^ 52 + 1, 1, by norm_num⟩, by norm_num, by norm_num⟩

theorem test_round64_boundary : round64 (2 ^ 1024 - 2 ^ 970) = .inf false ∧
    round64 (2 ^ 1024 - 2 ^ 970 - 1) = .fin (2 ^ 1024 - 2 ^ 971) := by decide +kernel

end Sys2Proof.Tests
end

/-! ### Binary64 rounding: to nearest, ties to even (93_implementation_defined.md G1) -/

namespace Sys2Proof.Machine

/-! #### The numbers of binary64 -/

/-- A number of binary64's precision whose exponent has no upper bound: what `roundMagnitude` answers before `round64`
looks at the range. -/
def HasPrecision64 (v : Rat) : Prop := ∃ (k e : Int), |k| < 2 ^ 53 ∧ -1074 ≤ e ∧ v = k * (2 : Rat) ^ e

theorem IsBinary64.hasPrecision64 {v : Rat} : IsBinary64 v → HasPrecision64 v
  | ⟨k, e, hk, he, _, hv⟩ => ⟨k, e, hk, he, hv⟩

theorem HasPrecision64.neg {v : Rat} : HasPrecision64 v → HasPrecision64 (-v)
  | ⟨k, e, hk, he, hv⟩ => ⟨-k, e, by rwa [abs_neg], he, by rw [hv]; push_cast; ring⟩

theorem IsBinary64.neg {v : Rat} : IsBinary64 v → IsBinary64 (-v)
  | ⟨k, e, hk, he, he', hv⟩ => ⟨-k, e, by rwa [abs_neg], he, he', by rw [hv]; push_cast; ring⟩

/-- The bound of the range, in half last places (`2^970`) of the largest numbers. -/
theorem two_pow_1024 : (2 : Rat) ^ 1024 = 2 ^ 54 * 2 ^ 970 := by rw [← pow_add]

theorem two_zpow_971 : (2 : Rat) ^ (971 : Int) = 2 * 2 ^ 970 := by
  rw [show (971 : Int) = (970 : Nat) + 1 from rfl, zpow_add_one₀ two_ne_zero, zpow_natCast, mul_comm]

/-- An integer times `2^u`, with `u ≤ e`, in units of `2^u`. -/
theorem mul_zpow_eq_units (k : Int) {u e : Int} (h : u ≤ e) :
    (k : Rat) * 2 ^ e = (k * 2 ^ (e - u).toNat : Int) * 2 ^ u := by
  have he : e = (e - u).toNat + u := by omega
  conv_lhs => rw [he, zpow_add₀ two_ne_zero, zpow_natCast]
  push_cast
  ring

theorem abs_mul_zpow (k : Rat) (u : Int) : |k * 2 ^ u| = |k| * 2 ^ u := by
  rw [abs_mul, abs_of_pos (zpow_pos (a := (2 : Rat)) two_pos u)]

theorem abs_intCast_le_of_lt {k : Int} (hk : |k| < 2 ^ 53) : |(k : Rat)| ≤ 2 ^ 53 - 1 := by
  have : |k| ≤ 2 ^ 53 - 1 := by omega
  exact_mod_cast this

/-- The largest number of binary64. -/
theorem IsBinary64.abs_le {v : Rat} (hv : IsBinary64 v) : |v| ≤ (2 ^ 53 - 1) * (2 * 2 ^ 970) := by
  obtain ⟨k, e, hk, -, he, rfl⟩ := hv
  have h971 : (2 : Rat) ^ e ≤ 2 * 2 ^ 970 := (zpow_le_zpow_right₀ one_le_two he).trans_eq two_zpow_971
  rw [abs_mul_zpow]
  exact mul_le_mul (abs_intCast_le_of_lt hk) h971 (by positivity) (by norm_num)

/-- The bound of the range is a number of the precision, so that rounding may reach it. -/
theorem hasPrecision64_two_pow_1024 : HasPrecision64 (2 ^ 1024) :=
  ⟨1, 1024, by norm_num, by norm_num, by rw [Int.cast_one, one_mul]; rfl⟩

theorem isBinary64_iff {v : Rat} : IsBinary64 v ↔ HasPrecision64 v ∧ |v| < 2 ^ 1024 := by
  constructor
  · intro h
    have hmax := h.abs_le
    have hpos : (0 : Rat) < 2 ^ 970 := by positivity
    refine ⟨h.hasPrecision64, ?_⟩
    rw [two_pow_1024]
    generalize (2 : Rat) ^ 970 = b at *
    linarith
  · rintro ⟨⟨k, e, hk, he, rfl⟩, hlt⟩
    rcases le_or_gt e 971 with h | h
    · exact ⟨k, e, hk, he, h, rfl⟩
    · rw [mul_zpow_eq_units k h.le] at hlt ⊢
      refine ⟨_, 971, ?_, by norm_num, le_rfl, rfl⟩
      have hbound : (2 : Rat) ^ 1024 = 2 ^ (53 : Int) * 2 ^ (971 : Int) := by rw [← zpow_add₀ two_ne_zero]; rfl
      rw [abs_mul_zpow, hbound, mul_lt_mul_iff_left₀ (by positivity)] at hlt
      exact_mod_cast hlt

/-! #### The magnitude in units of its last place -/

/-- Where `roundEven` is half away from the quotient, it is even. -/
theorem even_roundEven_of_tie {num den : Nat} (hd : 0 < den)
    (h : 2 * num + den = 2 * (den * roundEven num den) ∨ 2 * num = 2 * (den * roundEven num den) + den) :
    Even (roundEven num den) := by
  have h1 := Nat.div_add_mod num den
  have h2 := Nat.mod_lt num hd
  have e1 : den * (num / den + 1) = den * (num / den) + den := by ring
  rw [Nat.even_iff]
  unfold roundEven at h ⊢
  split at h <;> rename_i below
  · omega
  · split at h <;> rename_i above
    · rw [e1] at h; omega
    · rw [if_neg below, if_neg above]
      split
      · assumption
      · omega

/-- A quotient in units of `2^u`, as the quotient of naturals that `unitsOf` rounds. -/
theorem div_zpow_eq_div (num den : Nat) (u : Int) :
    (num : Rat) / den / 2 ^ u = (num * 2 ^ (-u).toNat : Nat) / (den * 2 ^ u.toNat : Nat) := by
  rw [two_zpow_eq]
  push_cast
  field_simp

/-- Where `unitsOf` is half a unit away, it is even. -/
theorem even_unitsOf_of_tie (num : Nat) {den : Nat} (hd : 0 < den) (u : Int)
    (h : |(num : Rat) / den / 2 ^ u - unitsOf num den u| = 1 / 2) : Even (unitsOf num den u) := by
  have hden : 0 < den * 2 ^ u.toNat := by positivity
  have hq : (0 : Rat) < (den * 2 ^ u.toNat : Nat) := by exact_mod_cast hden
  refine even_roundEven_of_tie hden ?_
  rw [div_zpow_eq_div] at h
  change |_ - ((roundEven _ _ : Nat) : Rat)| = _ at h
  generalize roundEven (num * 2 ^ (-u).toNat) (den * 2 ^ u.toNat) = k at h ⊢
  generalize num * 2 ^ (-u).toNat = x at h ⊢
  generalize den * 2 ^ u.toNat = y at h hq ⊢
  have hx : (x : Rat) / y * y = x := div_mul_cancel₀ _ hq.ne'
  rcases (abs_eq (by norm_num)).mp h with h | h
  · right
    rw [sub_eq_iff_eq_add.mp h] at hx
    have : 2 * (x : Rat) = 2 * (y * k) + y := by linarith
    exact_mod_cast this
  · left
    rw [sub_eq_iff_eq_add.mp h] at hx
    have : 2 * (x : Rat) + y = 2 * (y * k) := by linarith
    exact_mod_cast this

theorem natAbs_num_div_den (q : Rat) : (q.num.natAbs : Rat) / q.den = |q| := by
  conv_rhs => rw [← Rat.num_div_den q, abs_div, Nat.abs_cast]
  rw [Nat.cast_natAbs, Int.cast_abs]

/-- `m` is `k` units of `2^u`, the last place at the magnitude `a`: to the nearest unit, ties to even. -/
structure RoundsInUnits (a m : Rat) (u : Int) (k : Nat) : Prop where
  eq : m = k * (2 : Rat) ^ u
  near : |a / 2 ^ u - k| ≤ 1 / 2
  tie : |a / 2 ^ u - k| = 1 / 2 → Even k
  lowest : -1074 ≤ u
  below : a / 2 ^ u < 2 ^ 53
  leading : u = -1074 ∨ 2 ^ 52 ≤ a / 2 ^ u

/-- The last place stands 52 places below the leading bit, or is the lowest there is. -/
theorem lastPlace_spec {num den : Nat} (hn : 0 < num) (hd : 0 < den) :
    (num : Rat) / den / 2 ^ lastPlace num den < 2 ^ 53 ∧
      (lastPlace num den = -1074 ∨ 2 ^ 52 ≤ (num : Rat) / den / 2 ^ lastPlace num den) := by
  obtain ⟨lo, hi⟩ := floorLog2_spec hn hd
  have two : (2 : Rat) ≠ 0 := two_ne_zero
  have units : ∀ n : Nat, (2 : Rat) ^ n * 2 ^ lastPlace num den = 2 ^ (n + lastPlace num den) := fun n => by
    rw [zpow_add₀ two, zpow_natCast]
  constructor
  · rw [div_lt_iff₀ (by positivity), units]
    exact hi.trans_le (zpow_le_zpow_right₀ one_le_two (by unfold lastPlace; omega))
  · rcases le_or_gt (-1022) (floorLog2 num den) with h | h
    · right
      rw [le_div_iff₀ (by positivity), units]
      exact le_trans (zpow_le_zpow_right₀ one_le_two (by unfold lastPlace; omega)) lo
    · left
      unfold lastPlace
      omega

theorem roundMagnitude_zero : roundMagnitude 0 = 0 := by decide +kernel

theorem roundMagnitude_roundsInUnits {q : Rat} (hq : q ≠ 0) :
    ∃ u k, RoundsInUnits |q| (roundMagnitude q) u k := by
  have hn : 0 < q.num.natAbs := Int.natAbs_pos.mpr (Rat.num_ne_zero.mpr hq)
  obtain ⟨below, leading⟩ := lastPlace_spec hn q.den_pos
  refine ⟨lastPlace q.num.natAbs q.den, unitsOf q.num.natAbs q.den (lastPlace q.num.natAbs q.den), ?_⟩
  rw [← natAbs_num_div_den q]
  exact {
    eq := ofUnits_eq _ _
    near := unitsOf_spec _ q.den_pos _
    tie := even_unitsOf_of_tie _ q.den_pos _
    lowest := by unfold lastPlace; omega
    below := below
    leading := leading }

namespace RoundsInUnits

/-- The rounded magnitude is a number of the precision: where the units reach `2^53`, in twice the unit. -/
theorem hasPrecision64 {a m : Rat} {u : Int} {k : Nat} (h : RoundsInUnits a m u k) : HasPrecision64 m := by
  have hk : k ≤ 2 ^ 53 := by
    have h1 := (abs_le.mp h.near).1
    have h2 : (k : Rat) < (2 ^ 53 + 1 : Nat) := by push_cast; linarith [h.below]
    have h3 : k < 2 ^ 53 + 1 := by exact_mod_cast h2
    omega
  have hu := h.lowest
  rcases hk.lt_or_eq with hk | rfl
  · exact ⟨k, u, by rw [Nat.abs_cast]; exact_mod_cast hk, hu, by rw [h.eq, Int.cast_natCast]⟩
  · refine ⟨2 ^ 52, u + 1, by norm_num, by omega, ?_⟩
    rw [h.eq, zpow_add_one₀ two_ne_zero]
    push_cast
    ring

/-- A number of the precision is a whole number of the units, or is smaller than every magnitude with this last place
by half a unit at least. -/
theorem units_of_hasPrecision64 {a m r : Rat} {u : Int} {k : Nat} (h : RoundsInUnits a m u k)
    (hr : HasPrecision64 r) :
    (∃ n : Int, r / 2 ^ u = n) ∨ (|r / 2 ^ u| ≤ 2 ^ 52 - 1 / 2 ∧ 2 ^ 52 ≤ a / 2 ^ u) := by
  obtain ⟨j, e, hj, he, rfl⟩ := hr
  have hpos : (0 : Rat) < 2 ^ u := zpow_pos two_pos u
  rcases le_or_gt u e with hue | hue
  · left
    exact ⟨_, by rw [mul_zpow_eq_units j hue, mul_div_cancel_right₀ _ hpos.ne']⟩
  · right
    refine ⟨?_, h.leading.resolve_left (by omega)⟩
    have half : (2 : Rat) ^ (e - u) ≤ 1 / 2 := by
      calc (2 : Rat) ^ (e - u) ≤ 2 ^ (-1 : Int) := zpow_le_zpow_right₀ one_le_two (by omega)
        _ = 1 / 2 := by norm_num
    calc |(j : Rat) * 2 ^ e / 2 ^ u| = |(j : Rat)| * 2 ^ (e - u) := by
          rw [mul_div_assoc, ← zpow_sub₀ two_ne_zero, abs_mul_zpow]
      _ ≤ (2 ^ 53 - 1) * (1 / 2) := mul_le_mul (abs_intCast_le_of_lt hj) half (by positivity) (by norm_num)
      _ = 2 ^ 52 - 1 / 2 := by norm_num

end RoundsInUnits

/-! #### No number is nearer, and ties are even -/

/-- A whole number within half of `x` is at least as near as any other, which is as near only at half. -/
theorem nearest_of_whole {x : Rat} {k : Nat} (near : |x - k| ≤ 1 / 2) (n : Int) :
    |x - k| ≤ |x - n| ∧ (|x - k| = |x - n| → (n : Rat) ≠ k → |x - k| = 1 / 2 ∧ |(k : Rat) - n| = 1) := by
  rcases eq_or_ne n k with rfl | hne
  · exact ⟨le_of_eq (by simp), fun _ h => absurd (by simp) h⟩
  · have apart : (1 : Rat) ≤ |(k : Rat) - n| := by
      have : (1 : Int) ≤ |(k : Int) - n| := Int.one_le_abs (sub_ne_zero.mpr hne.symm)
      exact_mod_cast this
    have triangle : |(k : Rat) - n| ≤ |x - k| + |x - n| := by
      rw [abs_sub_comm x k]
      exact abs_sub_le _ _ _
    refine ⟨by linarith, fun h _ => ⟨by linarith, by linarith⟩⟩

/-- A number half a unit below `2^52` is farther from `x` than the nearest whole number. -/
theorem nearest_of_below {x s : Rat} {k : Nat} (near : |x - k| ≤ 1 / 2) (hs : |s| ≤ 2 ^ 52 - 1 / 2)
    (hx : 2 ^ 52 ≤ x) : |x - k| < |x - s| := by
  have hs' := (abs_le.mp hs).2
  have far : 1 / 2 ≤ |x - s| := le_trans (by linarith) (le_abs_self _)
  refine lt_of_le_of_ne (near.trans far) fun heq => ?_
  -- half away on both sides, `x` is `2^52`, a whole number, and rounds to itself
  have hxs : x - s ≤ 1 / 2 := (le_abs_self _).trans (heq ▸ near)
  have hx' : x = 2 ^ 52 := by linarith
  have hself := (nearest_of_whole near (2 ^ 52)).1
  rw [hx', Int.cast_pow, Int.cast_ofNat, sub_self, abs_zero, ← hx'] at hself
  linarith

theorem abs_sub_eq_units (a b : Rat) (u : Int) : |a - b| = |a / 2 ^ u - b / 2 ^ u| * 2 ^ u := by
  rw [← abs_mul_zpow, sub_mul, div_mul_cancel₀ _ (by positivity), div_mul_cancel₀ _ (by positivity)]

/-- `v` is the rounding of `x`, as seen from the number `r`: `r` is not nearer to `x`, and where it is as near, `v` is
an even multiple of their distance. -/
def NearestEven (x v r : Rat) : Prop :=
  |x - v| ≤ |x - r| ∧ (|x - v| = |x - r| → r ≠ v → ∃ k : Int, v = 2 * k * |v - r|)

theorem NearestEven.neg {x v r : Rat} (h : NearestEven x v (-r)) : NearestEven (-x) (-v) r := by
  have e : ∀ a b : Rat, |-a - b| = |a - -b| := fun a b => by rw [← abs_neg]; congr 1; ring
  obtain ⟨hnear, htie⟩ := h
  unfold NearestEven
  rw [e, e, e, neg_neg]
  refine ⟨hnear, fun heq hne => ?_⟩
  obtain ⟨k, hk⟩ := htie heq (fun h => hne (by rw [← h, neg_neg]))
  exact ⟨-k, by push_cast; linarith⟩

theorem RoundsInUnits.nearestEven {a m r : Rat} {u : Int} {k : Nat} (h : RoundsInUnits a m u k)
    (hr : HasPrecision64 r) : NearestEven a m r := by
  have hpos : (0 : Rat) < 2 ^ u := zpow_pos two_pos u
  have hm : m / 2 ^ u = k := by rw [h.eq, mul_div_cancel_right₀ _ hpos.ne']
  have hne : r ≠ m → r / 2 ^ u ≠ k := fun hne heq => hne (by rw [h.eq, ← heq, div_mul_cancel₀ _ hpos.ne'])
  unfold NearestEven
  rw [abs_sub_eq_units a m u, abs_sub_eq_units a r u, abs_sub_eq_units m r u, hm,
    mul_le_mul_iff_left₀ hpos, mul_left_inj' hpos.ne']
  rcases h.units_of_hasPrecision64 hr with ⟨n, hn⟩ | ⟨hs, hx⟩
  · obtain ⟨hle, htie⟩ := nearest_of_whole h.near n
    rw [hn] at hne ⊢
    refine ⟨hle, fun heq hrm => ?_⟩
    obtain ⟨hhalf, hone⟩ := htie heq (hne hrm)
    obtain ⟨j, hj⟩ := h.tie hhalf
    exact ⟨j, by rw [hone, h.eq, hj]; push_cast; ring⟩
  · have hlt := nearest_of_below h.near hs hx
    exact ⟨hlt.le, fun heq => absurd heq hlt.ne⟩

theorem roundMagnitude_hasPrecision64 (q : Rat) : HasPrecision64 (roundMagnitude q) := by
  rcases eq_or_ne q 0 with rfl | hq
  · exact ⟨0, 0, by norm_num, by norm_num, by rw [roundMagnitude_zero]; norm_num⟩
  · obtain ⟨u, k, h⟩ := roundMagnitude_roundsInUnits hq
    exact h.hasPrecision64

theorem roundMagnitude_nearestEven (q : Rat) {r : Rat} (hr : HasPrecision64 r) :
    NearestEven |q| (roundMagnitude q) r := by
  rcases eq_or_ne q 0 with rfl | hq
  · rw [roundMagnitude_zero, abs_zero]
    exact ⟨by simp, fun _ _ => ⟨0, by simp⟩⟩
  · obtain ⟨u, k, h⟩ := roundMagnitude_roundsInUnits hq
    exact h.nearestEven hr

theorem roundMagnitude_nonneg (q : Rat) : 0 ≤ roundMagnitude q := by
  rw [roundMagnitude, ofUnits_eq]
  positivity

/-! #### The range -/

/-- A tie at the bound of the range goes up: the largest number of binary64 is an odd multiple of its distance to
`2^1024`. -/
theorem not_nearestEven_of_threshold {a m : Rat} (hm : IsBinary64 m) (ha : 2 ^ 1024 - 2 ^ 970 ≤ a) :
    ¬ NearestEven a m (2 ^ 1024) := by
  rintro ⟨hnear, htie⟩
  have hmax := (abs_le.mp hm.abs_le).2
  have hpos : (0 : Rat) < 2 ^ 970 := by positivity
  rw [two_pow_1024] at ha hnear htie
  generalize (2 : Rat) ^ 970 = b at *
  have hma : |a - m| = a - m := abs_of_nonneg (by linarith)
  rw [hma] at hnear htie
  have hab : |a - 2 ^ 54 * b| = 2 ^ 54 * b - a := by
    rcases le_or_gt a (2 ^ 54 * b) with h | h
    · rw [abs_sub_comm, abs_of_nonneg (by linarith)]
    · rw [abs_of_pos (by linarith)] at hnear
      linarith
  rw [hab] at hnear htie
  have hm' : m = (2 ^ 53 - 1) * (2 * b) := by linarith
  obtain ⟨k, hk⟩ := htie (by linarith) (by linarith)
  have hdist : |m - 2 ^ 54 * b| = 2 * b := by rw [abs_sub_comm, abs_of_nonneg (by linarith)]; linarith
  rw [hdist, hm', mul_left_inj' (by positivity)] at hk
  have : (2 ^ 53 - 1 : Int) = 2 * k := by exact_mod_cast hk
  omega

/-- Below half a last place above the largest number of binary64, that number is nearer than `2^1024`. -/
theorem le_of_lt_threshold {a m : Rat} (ha : a < 2 ^ 1024 - 2 ^ 970)
    (h : NearestEven a m (2 ^ 1024 - 2 * 2 ^ 970)) : m < 2 ^ 1024 := by
  obtain ⟨hnear, -⟩ := h
  have hpos : (0 : Rat) < 2 ^ 970 := by positivity
  generalize (2 : Rat) ^ 1024 = c at *
  generalize (2 : Rat) ^ 970 = b at *
  have := neg_abs_le (a - m)
  rcases abs_cases (a - (c - 2 * b)) with ⟨h, -⟩ | ⟨h, -⟩ <;> linarith

theorem hasPrecision64_largest : HasPrecision64 (2 ^ 1024 - 2 * 2 ^ 970) := by
  refine ⟨2 ^ 53 - 1, 971, by norm_num, by norm_num, ?_⟩
  rw [two_pow_1024, two_zpow_971]
  generalize (2 : Rat) ^ 970 = b
  push_cast
  ring

theorem two_pow_1024_le_roundMagnitude (q : Rat) : 2 ^ 1024 ≤ roundMagnitude q ↔ 2 ^ 1024 - 2 ^ 970 ≤ |q| := by
  constructor
  · intro h
    by_contra hlt
    exact absurd (le_of_lt_threshold (not_le.mp hlt) (roundMagnitude_nearestEven q hasPrecision64_largest))
      (not_lt.mpr h)
  · intro h
    by_contra hlt
    have hm : IsBinary64 (roundMagnitude q) := isBinary64_iff.mpr
      ⟨roundMagnitude_hasPrecision64 q, by rwa [abs_of_nonneg (roundMagnitude_nonneg q), ← not_le]⟩
    exact not_nearestEven_of_threshold hm h (roundMagnitude_nearestEven q hasPrecision64_two_pow_1024)

/-! #### The rounding -/

theorem round64_eq_inf {q : Rat} (h : 2 ^ 1024 - 2 ^ 970 ≤ |q|) : round64 q = .inf (decide (q < 0)) :=
  if_pos ((two_pow_1024_le_roundMagnitude q).mpr h)

theorem round64_eq_fin {q : Rat} (h : |q| < 2 ^ 1024 - 2 ^ 970) :
    round64 q = .fin (if q < 0 then -roundMagnitude q else roundMagnitude q) :=
  if_neg (mt (two_pow_1024_le_roundMagnitude q).mp (not_le.mpr h))

theorem lt_threshold_of_round64_eq_fin {q v : Rat} (h : round64 q = .fin v) : |q| < 2 ^ 1024 - 2 ^ 970 := by
  by_contra hge
  rw [round64_eq_inf (not_lt.mp hge)] at h
  cases h

theorem isBinary64_of_round64 {q v : Rat} (h : round64 q = .fin v) : IsBinary64 v := by
  have hlt := lt_threshold_of_round64_eq_fin h
  have hm : IsBinary64 (roundMagnitude q) := isBinary64_iff.mpr ⟨roundMagnitude_hasPrecision64 q, by
    rw [abs_of_nonneg (roundMagnitude_nonneg q), ← not_le, two_pow_1024_le_roundMagnitude, not_le]
    exact hlt⟩
  rw [round64_eq_fin hlt] at h
  obtain rfl := Quantity.fin.inj h
  split
  · exact hm.neg
  · exact hm

theorem nearestEven_of_round64 {q v r : Rat} (h : round64 q = .fin v) (hr : HasPrecision64 r) : NearestEven q v r := by
  rw [round64_eq_fin (lt_threshold_of_round64_eq_fin h)] at h
  obtain rfl := Quantity.fin.inj h
  split
  next hneg =>
    have := (roundMagnitude_nearestEven q hr.neg).neg
    rwa [abs_of_neg hneg, neg_neg] at this
  next hpos =>
    have := roundMagnitude_nearestEven q hr
    rwa [abs_of_nonneg (not_lt.mp hpos)] at this

/-- The largest number of binary64 is below the values that round to infinity. -/
theorem IsBinary64.lt_threshold {v : Rat} (hv : IsBinary64 v) : |v| < 2 ^ 1024 - 2 ^ 970 := by
  have hmax := hv.abs_le
  have hpos : (0 : Rat) < 2 ^ 970 := by positivity
  rw [two_pow_1024]
  generalize (2 : Rat) ^ 970 = b at *
  linarith

theorem round64_of_isBinary64 {v : Rat} (hv : IsBinary64 v) : round64 v = .fin v := by
  have hfin := round64_eq_fin hv.lt_threshold
  generalize (if v < 0 then -roundMagnitude v else roundMagnitude v) = w at hfin
  obtain ⟨hnear, -⟩ := nearestEven_of_round64 hfin hv.hasPrecision64
  rw [sub_self, abs_zero, abs_nonpos_iff, sub_eq_zero] at hnear
  rw [hfin, hnear]

/-- Settles O58: the rounded magnitude is nearest and even among the numbers of binary64's precision without a range
(`roundMagnitude_nearestEven`), of which `2^1024` and the largest number decide the range. -/
theorem roundingIsToNearestBinary64 : Obligations.RoundingIsToNearestBinary64 := by
  refine ⟨fun q v h => ⟨isBinary64_of_round64 h, fun r hr => nearestEven_of_round64 h hr.hasPrecision64⟩,
    fun v hv => round64_of_isBinary64 hv, fun q => ?_⟩
  rcases lt_or_ge |q| (2 ^ 1024 - 2 ^ 970) with h | h
  · exact .inl ⟨_, h, round64_eq_fin h⟩
  · exact .inr ⟨h, round64_eq_inf h⟩

end Sys2Proof.Machine

/-! ### The state: what commands and steps write, the invariant, and what a command reads (10_state.md) -/

namespace Sys2Proof.Machine

/-! #### Which commands write each piece of state (R29) -/

/-- No command writes the parameters, the configuration or the input ports. -/
theorem exec_inputs {i : Instr} {s t : State} (h : exec i s = .next t) :
    t.par = s.par ∧ t.cfg = s.cfg ∧ t.cfgPort = s.cfgPort ∧ t.rst = s.rst ∧ t.cmd = s.cmd := by
  obtain ⟨st, d, rfl⟩ | ⟨e0, e1, -, rfl⟩ | ⟨a, u, v, -, rfl⟩ | ⟨a, u, sh, m, v, -, rfl⟩ := exec_cases h
  · simp
  · simp
  · simp
  · simp

theorem exec_resp {i : Instr} {s t : State} (h : exec i s = .next t) : ∃ r, t.resp = s.resp ++ [r] := by
  obtain ⟨st, d, rfl⟩ | ⟨e0, e1, -, rfl⟩ | ⟨a, u, v, -, rfl⟩ | ⟨a, u, sh, m, v, -, rfl⟩ := exec_cases h
  · exact ⟨⟨st, d⟩, rfl⟩
  · exact ⟨⟨.ok, .none⟩, rfl⟩
  · exact ⟨⟨.ok, .none⟩, rfl⟩
  · exact ⟨⟨.ok, .none⟩, rfl⟩

/-- Only the two field writes reach the banks or emit an event. -/
theorem exec_banks_events {i : Instr} {s t : State} (h : exec i s = .next t)
    (hne : t.bank0 ≠ s.bank0 ∨ t.bank1 ≠ s.bank1 ∨ t.wev ≠ s.wev) :
    (∃ a u v, i = .setField a u v) ∨ (∃ a u sh m v, i = .rmwField a u sh m v) := by
  obtain ⟨st, d, rfl⟩ | ⟨e0, e1, -, rfl⟩ | ⟨a, u, v, rfl, -⟩ | ⟨a, u, sh, m, v, rfl, -⟩ := exec_cases h
  · simp at hne
  · simp at hne
  · exact .inl ⟨a.val, u, v, rfl⟩
  · exact .inr ⟨a.val, u, sh, m, v, rfl⟩

/-- Only SET_CHEN writes the enables. -/
theorem exec_enables {i : Instr} {s t : State} (h : exec i s = .next t)
    (hne : t.chen0 ≠ s.chen0 ∨ t.chen1 ≠ s.chen1) : ∃ e0 e1, i = .setChen e0 e1 := by
  obtain ⟨st, d, rfl⟩ | ⟨e0, e1, rfl, -⟩ | ⟨a, u, v, -, rfl⟩ | ⟨a, u, sh, m, v, -, rfl⟩ := exec_cases h
  · simp at hne
  · exact ⟨e0, e1, rfl⟩
  · simp at hne
  · simp at hne

/-- Settles O42: each piece of state by its own lemma over the four things a command can do (`exec_cases`). -/
theorem commandsWriteOnlyTheirOwnState : Obligations.CommandsWriteOnlyTheirOwnState := by
  intro i s t h
  obtain ⟨hpar, hcfg, hport, hrst, hcmd⟩ := exec_inputs h
  exact ⟨hpar, hcfg, hport, hrst, hcmd, exec_resp h, exec_banks_events h, exec_enables h⟩

/-- Settles O7: a reset keeps the parameters and is excluded when none is requested; a command, by `exec_inputs`, and an
answered fault keep the parameters, the configuration and the withdrawn request. -/
theorem onlyResetChangesConfiguration : Obligations.OnlyResetChangesConfiguration := by
  intro s t h
  obtain ⟨hr, c, -, rfl⟩ | ⟨hr, i, rest, -, he⟩ | ⟨hr, f, rest, rfl⟩ | ⟨hr, rfl⟩ := step_cases h
  · exact ⟨rfl, fun hr' => by simp [hr] at hr'⟩
  · obtain ⟨hpar, hcfg, -, hrst, -⟩ := exec_inputs he
    exact ⟨hpar, fun _ => ⟨hcfg, hrst.trans hr⟩⟩
  · exact ⟨rfl, fun _ => ⟨rfl, hr⟩⟩
  · exact ⟨rfl, fun _ => ⟨rfl, hr⟩⟩

/-! #### The invariant (R23, R31, R6) -/

/-- The invariant reads the parameters, the configuration and the banks only. -/
theorem State.Inv.congr {s t : State} (hs : s.Inv) (hpar : t.par = s.par) (hcfg : t.cfg = s.cfg)
    (h0 : t.bank0 = s.bank0) (h1 : t.bank1 = s.bank1) : t.Inv := by
  unfold State.Inv
  rwa [hpar, hcfg, h0, h1]

theorem shadowWrite_keeps_inv {s : State} (hs : s.Inv) (a : Addr) (w : Word) (u : Bool) :
    (s.shadowWrite a w u).Inv := by
  obtain ⟨hpar, hcfg, hbanks⟩ := hs
  exact ⟨hpar, hcfg, sharedEqual_writeReg hbanks a w⟩

/-- A reset loads a good configuration, and the reset banks, which legal parameters hold equal where shared. -/
theorem loadReset_keeps_inv {s : State} (hs : s.Inv) {c : ClockConfig}
    (hc : clockConfig s.par.numeric s.cfgPort = some c) : (s.loadReset c).Inv := by
  obtain ⟨hpar, -, -⟩ := hs
  exact ⟨hpar, clockConfig_good hc, hpar⟩

theorem exec_keeps_inv {i : Instr} {s t : State} (hs : s.Inv) (h : exec i s = .next t) : t.Inv := by
  obtain ⟨st, d, rfl⟩ | ⟨e0, e1, -, rfl⟩ | ⟨a, u, v, -, rfl⟩ | ⟨a, u, sh, m, v, -, rfl⟩ := exec_cases h
  · exact hs.congr rfl rfl rfl rfl
  · exact hs.congr rfl rfl rfl rfl
  · exact shadowWrite_keeps_inv hs a v u
  · exact shadowWrite_keeps_inv hs a (merge (s.cur a) m sh v) u

theorem step_keeps_inv {s t : State} (hs : s.Inv) (h : step s = .next t) : t.Inv := by
  obtain ⟨-, c, hc, rfl⟩ | ⟨-, i, rest, -, he⟩ | ⟨-, f, rest, rfl⟩ | ⟨-, rfl⟩ := step_cases h
  · exact loadReset_keeps_inv hs hc
  · have hread : ({ s with cmd := rest } : State).Inv := hs.congr rfl rfl rfl rfl
    exact exec_keeps_inv hread he
  · exact hs.congr rfl rfl rfl rfl
  · exact hs

/-- Settles O5: a reset loads what legal parameters and positive clocks make good, a write keeps the banks equal where
shared, and nothing else a step does reaches what the invariant reads. -/
theorem stepKeepsInvariant : Obligations.StepKeepsInvariant := fun _ _ => step_keeps_inv

theorem State.Reachable.inv {s : State} (h : s.Reachable) : s.Inv := by
  induction h with
  | constructed p k c hp hc => exact ⟨hp, clockConfig_good hc, hp⟩
  | presented s p rst items _ ih => exact ih.congr rfl rfl rfl rfl
  | stepped s t _ ht ih => exact step_keeps_inv ih ht

/-- Settles O6: the banks' part of the invariant, which every reachable state meets (`State.Reachable.inv`). -/
theorem sharedAddressesEqualInReachableStates : Obligations.SharedAddressesEqualInReachableStates := by
  intro s h
  obtain ⟨-, -, hbanks⟩ := h.inv
  exact (sharedEqual_iff s).mp hbanks

/-! #### The state after reset -/

/-- The configuration of `State.reset` is the one R190 derives from the clocks on its port. -/
theorem clockConfig_reset : clockConfig State.reset.par.numeric State.reset.cfgPort = some State.reset.cfg := by
  have hclocks : (0 : Rat) < Config.refClk ∧ (0 : Rat) < Config.pllMult := by
    norm_num [Config.refClk, Config.pllMult]
  refine (clockConfig_exact State.reset.cfgPort hclocks.1 hclocks.2).trans ?_
  norm_num [State.reset, Config.refClk, Config.pllMult]

/-- Both reset banks are the same 25 words (notes/assumptions/2.md). -/
theorem Params.default_good : Params.default.Good := fun _ _ => rfl

theorem State.reset_reachable : State.reset.Reachable :=
  .constructed State.reset.par State.reset.cfgPort State.reset.cfg Params.default_good clockConfig_reset

/-- Settles O2: `State.reset` is a constructed block, so it is reachable. -/
theorem resetStateMeetsInvariant : Obligations.ResetStateMeetsInvariant := State.reset_reachable.inv

theorem State.reset_word (c : Channel) (a : Addr) : State.reset.word c a = 0 := by
  cases c with
  | ch0 => exact Vector.getElem_replicate a.isLt
  | ch1 => exact Vector.getElem_replicate a.isLt

theorem State.reset_enabled (c : Channel) : State.reset.enabled c = true := by
  cases c with
  | ch0 => rfl
  | ch1 => rfl

/-- Settles O1: the fields of `State.reset` as they stand, the banks word by word. -/
theorem resetHoldsNamedValues : Obligations.ResetHoldsNamedValues :=
  ⟨rfl, rfl, rfl, State.reset_word, State.reset_enabled, rfl, rfl, rfl, rfl⟩

/-! #### What a command reads (R34, R35) -/

/-- The two states agree on everything a command reads. -/
structure AgreeOnRead (s s' : State) : Prop where
  par : s'.par = s.par
  cfg : s'.cfg = s.cfg
  bank0 : s'.bank0 = s.bank0
  bank1 : s'.bank1 = s.bank1
  chen0 : s'.chen0 = s.chen0
  chen1 : s'.chen1 = s.chen1

/-- From `s` to `t` and from `s'` to `t'` the same happens: the banks and enables become the same, and the same response
and events leave. -/
def SameEffect (s t s' t' : State) : Prop :=
  ∃ r es, t'.bank0 = t.bank0 ∧ t'.bank1 = t.bank1 ∧ t'.chen0 = t.chen0 ∧ t'.chen1 = t.chen1 ∧
    t.resp = s.resp ++ [r] ∧ t'.resp = s'.resp ++ [r] ∧ t.wev = s.wev ++ es ∧ t'.wev = s'.wev ++ es

/-- Where the outcome `o` from `s` completes, the outcome `o'` from `s'` completes to the same effect. -/
def CompletesAlike (s s' : State) (o o' : Host.Outcome State Fault Refusal) : Prop :=
  ∀ t, o = .next t → ∃ t', o' = .next t' ∧ SameEffect s t s' t'

theorem SameEffect.completesAlike {s t s' t' : State} (h : SameEffect s t s' t') :
    CompletesAlike s s' (.next t) (.next t') := by
  intro u hu
  obtain rfl := Host.Outcome.next.inj hu
  exact ⟨t', rfl, h⟩

theorem completesAlike_fault (s s' : State) (f : Fault) (o' : Host.Outcome State Fault Refusal) :
    CompletesAlike s s' (.fault f) o' := fun _ h => nomatch h

/-- The address check does not read the state. -/
theorem completesAlike_withAddr {s s' : State} {k k' : Addr → Host.Outcome State Fault Refusal}
    (h : ∀ b, CompletesAlike s s' (k b) (k' b)) (a : Nat) : CompletesAlike s s' (withAddr a k) (withAddr a k') := by
  obtain ⟨b, rfl, hk⟩ | ⟨-, hk⟩ := withAddr_cases a k
  · rw [hk, withAddr_in]
    exact h b
  · rw [hk]
    exact completesAlike_fault s s' _ _

namespace AgreeOnRead

variable {s s' : State}

theorem word (h : AgreeOnRead s s') (c : Channel) (a : Addr) : s'.word c a = s.word c a :=
  State.word_eq_of_bank h.bank0 h.bank1 c a

theorem cur (h : AgreeOnRead s s') (a : Addr) : s'.cur a = s.cur a :=
  State.cur_eq_of_shadow h.bank0 h.bank1 h.chen0 h.chen1 a

theorem bankAfterWrite (h : AgreeOnRead s s') (c : Channel) (a : Addr) (w : Word) :
    s'.bankAfterWrite c a w = s.bankAfterWrite c a w := by
  cases c with
  | ch0 => simp [State.bankAfterWrite, State.targets, h.bank0, h.chen0]
  | ch1 => simp [State.bankAfterWrite, State.targets, h.bank1, h.chen1]

theorem respond_alike (h : AgreeOnRead s s') (st : Status) (d : Data) :
    CompletesAlike s s' (.next (s.respond st d)) (.next (s'.respond st d)) :=
  SameEffect.completesAlike
    ⟨⟨st, d⟩, [], h.bank0, h.bank1, h.chen0, h.chen1, rfl, rfl,
      (List.append_nil _).symm, (List.append_nil _).symm⟩

theorem setChen_alike (h : AgreeOnRead s s') (e0 e1 : Bool) :
    CompletesAlike s s' (.next ((s.setChen e0 e1).respond .ok .none)) (.next ((s'.setChen e0 e1).respond .ok .none)) :=
  SameEffect.completesAlike
    ⟨⟨.ok, .none⟩, [], h.bank0, h.bank1, rfl, rfl, rfl, rfl, (List.append_nil _).symm, (List.append_nil _).symm⟩

theorem shadowWrite_alike (h : AgreeOnRead s s') (a : Addr) (w : Word) (u : Bool) :
    CompletesAlike s s' (.next (s.shadowWrite a w u)) (.next (s'.shadowWrite a w u)) :=
  SameEffect.completesAlike
    ⟨⟨.ok, .none⟩, [⟨a, w, u⟩], h.bankAfterWrite .ch0 a w, h.bankAfterWrite .ch1 a w, h.chen0, h.chen1,
      rfl, rfl, rfl, rfl⟩

/-- Each command's outcome is made of what the two states agree on. -/
theorem exec_alike (h : AgreeOnRead s s') (i : Instr) : CompletesAlike s s' (exec i s) (exec i s') := by
  cases i with
  | encFreq x =>
    simp only [exec, execEncFreq, h.par, h.cfg]
    exact h.respond_alike _ _
  | encPhase x =>
    simp only [exec, execEncPhase, h.par]
    exact h.respond_alike _ _
  | encAmp x =>
    simp only [exec, execEncAmp, h.par]
    exact h.respond_alike _ _
  | setChen e0 e1 => exact h.setChen_alike e0 e1
  | setField a u v => exact completesAlike_withAddr (fun b => h.shadowWrite_alike b v u) a
  | readCur a =>
    simp only [exec, execReadCur, h.cur]
    exact completesAlike_withAddr (fun _ => h.respond_alike _ _) a
  | readBank c a =>
    simp only [exec, execReadBank, h.word]
    exact completesAlike_withAddr (fun _ => h.respond_alike _ _) a
  | rmwField a u sh m v =>
    simp only [exec, execRmwField, h.cur]
    exact completesAlike_withAddr (fun b => h.shadowWrite_alike b _ u) a
  | rampOpt t s0 e0 tr tf =>
    by_cases ht : t = .none
    · subst ht
      exact completesAlike_fault s s' .badRampType _
    · simp only [exec_rampOpt ht, h.par, h.cfg]
      exact h.respond_alike _ _

end AgreeOnRead

/-- Settles O44: every command's outcome depends on what the two states agree on alone (`AgreeOnRead.exec_alike`). -/
theorem commandsIgnoreOutputHistory : Obligations.CommandsIgnoreOutputHistory := by
  intro i s s' t hpar hcfg h0 h1 hc0 hc1 ht
  obtain ⟨t', ht', r, es, heffect⟩ := AgreeOnRead.exec_alike ⟨hpar, hcfg, h0, h1, hc0, hc1⟩ i t ht
  exact ⟨t', r, es, ht', heffect⟩

end Sys2Proof.Machine

/-! ### The output ports (20_memory.md) -/

namespace Sys2Proof.Machine

/-- From `s` to `t` the output ports only grow: by at most one response and at most one write event, an event only with
an `OK` response without data. -/
def AppendsOutputs (s t : State) : Prop :=
  ∃ rs es, t.resp = s.resp ++ rs ∧ t.wev = s.wev ++ es ∧ rs.length ≤ 1 ∧ es.length ≤ 1 ∧
    (es ≠ [] → rs = [⟨.ok, .none⟩])

namespace AppendsOutputs

variable {s t : State}

theorem of_unchanged (hresp : t.resp = s.resp) (hwev : t.wev = s.wev) : AppendsOutputs s t :=
  ⟨[], [], by simp [hresp], by simp [hwev], by simp, by simp, fun h => absurd rfl h⟩

theorem of_response {r : Response} (hresp : t.resp = s.resp ++ [r]) (hwev : t.wev = s.wev) : AppendsOutputs s t :=
  ⟨[r], [], hresp, by simp [hwev], by simp, by simp, fun h => absurd rfl h⟩

/-- R107: a field write emits its one event and responds `OK`. -/
theorem shadowWrite (s : State) (a : Addr) (w : Word) (u : Bool) : AppendsOutputs s (s.shadowWrite a w u) :=
  ⟨[⟨.ok, .none⟩], [⟨a, w, u⟩], rfl, rfl, by simp, by simp, fun _ => rfl⟩

end AppendsOutputs

theorem exec_appendsOutputs {i : Instr} {s t : State} (h : exec i s = .next t) : AppendsOutputs s t := by
  obtain ⟨st, d, rfl⟩ | ⟨e0, e1, -, rfl⟩ | ⟨a, u, v, -, rfl⟩ | ⟨a, u, sh, m, v, -, rfl⟩ := exec_cases h
  · exact .of_response (State.respond_resp s st d) rfl
  · exact .of_response (State.respond_resp (s.setChen e0 e1) .ok .none) rfl
  · exact .shadowWrite s a v u
  · exact .shadowWrite s a (merge (s.cur a) m sh v) u

/-- Settles O43: a reset and an idle step leave the output ports, an answered fault adds its response alone, and a
command adds what `exec_appendsOutputs` allows, since reading it off the command port leaves the output ports. -/
theorem stepAppendsOneResponseAtMostOneEvent : Obligations.StepAppendsOneResponseAtMostOneEvent := by
  intro s t h
  obtain ⟨-, c, -, rfl⟩ | ⟨-, i, rest, -, he⟩ | ⟨-, f, rest, rfl⟩ | ⟨-, rfl⟩ := step_cases h
  · exact AppendsOutputs.of_unchanged (State.loadReset_resp s c) (State.loadReset_wev s c)
  · have hread : AppendsOutputs { s with cmd := rest } t := exec_appendsOutputs he
    exact hread
  · exact AppendsOutputs.of_response (State.takeFault_resp { s with cmd := rest } f) rfl
  · exact AppendsOutputs.of_unchanged rfl rfl

end Sys2Proof.Machine

/-! ### Encoding: the header and its operands, decoded and encoded (30_encoding.md) -/

namespace Sys2Proof

open Laws.HeaderMatchesTable (fits5_iff)

/-! #### A header's fields as digits of its number -/

theorem extractLsb'_eq_zero_iff (h : Word) (lo n : Nat) : h.extractLsb' lo n = 0 ↔ h.toNat / 2 ^ lo % 2 ^ n = 0 := by
  rw [← BitVec.toNat_inj, BitVec.extractLsb'_toNat, Nat.shiftRight_eq_div_pow]
  rfl

theorem toNat_getLsbD (h : Word) (k : Nat) : (h.getLsbD k).toNat = h.toNat / 2 ^ k % 2 := Nat.toNat_testBit h.toNat k

theorem code_fieldC (h : Word) : (Word.fieldC h).code = h.toNat / 2 ^ 21 % 2 := by
  rw [← toNat_getLsbD, Word.fieldC]
  cases h.getLsbD 21 <;> rfl

theorem code_fieldT (h : Word) : (Word.fieldT h).code = h.toNat / 2 ^ 26 % 2 ^ 2 := by
  rw [← Nat.shiftRight_eq_div_pow, ← BitVec.extractLsb'_toNat, Word.fieldT]
  have hlt := (h.extractLsb' 26 2).isLt
  generalize (h.extractLsb' 26 2).toNat = n at hlt
  interval_cases n <;> rfl

theorem Channel.code_lt (c : Channel) : c.code < 2 := by cases c <;> decide

theorem getLsbD_of_digit {h : Word} {k : Nat} {b : Bool} (hb : h.toNat / 2 ^ k % 2 = b.toNat) : h.getLsbD k = b := by
  rw [bit_eq, hb]
  cases b <;> rfl

theorem fieldC_of_digit {h : Word} {c : Channel} (hc : h.toNat / 2 ^ 21 % 2 = c.code) : Word.fieldC h = c := by
  rw [← code_fieldC] at hc
  revert hc
  cases Word.fieldC h <;> cases c <;> simp [Channel.code]

/-! #### The header decodes to what was encoded, and to nothing else -/

/-- READ_BANK's reserved bits stand on both sides of the field `C`. -/
theorem append_eq_zero_iff {m n : Nat} (x : BitVec m) (y : BitVec n) : x ++ y = 0 ↔ x = 0 ∧ y = 0 := by
  simp only [← BitVec.toNat_inj, BitVec.toNat_append, BitVec.ofNat_eq_ofNat, BitVec.toNat_ofNat, Nat.zero_mod,
    Nat.or_eq_zero_iff, Nat.shiftLeft_eq_zero_iff]

/-- A header that decodes is the encoding of what it decodes to: its opcode, its reserved bits, which are 0, and its
fields are all its digits. -/
theorem eq_encodeHeader_of_decodeHeader {w : Word} {hd : Header} (h : decodeHeader w = some hd) :
    w = encodeHeader hd ∧ hd.wf = true := by
  have hlt := w.isLt
  unfold decodeHeader at h
  split at h
  case h_10 => cases h -- the reserved opcodes
  all_goals
    next hop =>
    obtain ⟨hrsv, rfl⟩ := ifReservedZero_some.mp h
    rw [opcode_eq] at hop
    simp only [append_eq_zero_iff, extractLsb'_eq_zero_iff] at hrsv
    simp only [Header.wf, fits5_iff, Bool.and_eq_true, and_true, ← BitVec.toNat_inj, encodeHeader, BitVec.toNat_ofNat,
      fieldA_eq, fieldS_eq, Word.fieldU, toNat_getLsbD, code_fieldC, code_fieldT, pow_zero, Nat.div_one]
    omega

/-- The encoding of a well-formed header decodes to it: each digit of its number is read where it was placed. -/
theorem decodeHeader_of_eq_encodeHeader {w : Word} {hd : Header} (hw : w = encodeHeader hd) (hwf : hd.wf = true) :
    decodeHeader w = some hd := by
  have hnum := congrArg BitVec.toNat hw
  cases hd with
  | encFreq | encPhase | encAmp =>
    subst hw
    decide
  | setChen e0 e1 =>
    subst hw
    cases e0 <;> cases e1 <;> decide
  | rampOpt t =>
    subst hw
    cases t <;> decide
  | setField a u =>
    have ha := fits5_iff.mp hwf
    have hu := Bool.toNat_lt u
    simp only [encodeHeader, BitVec.toNat_ofNat] at hnum
    have hop : Word.opcode w = 5 := by rw [opcode_eq]; omega
    have hrsv : w.extractLsb' 0 22 = 0 := by rw [extractLsb'_eq_zero_iff]; omega
    have hA : Word.fieldA w = a := by rw [fieldA_eq]; omega
    have hU : Word.fieldU w = u := getLsbD_of_digit (by omega)
    simp only [decodeHeader, hop, ifReservedZero, hrsv, hA, hU, if_true]
  | readCur a =>
    have ha := fits5_iff.mp hwf
    simp only [encodeHeader, BitVec.toNat_ofNat] at hnum
    have hop : Word.opcode w = 6 := by rw [opcode_eq]; omega
    have hrsv : w.extractLsb' 0 23 = 0 := by rw [extractLsb'_eq_zero_iff]; omega
    have hA : Word.fieldA w = a := by rw [fieldA_eq]; omega
    simp only [decodeHeader, hop, ifReservedZero, hrsv, hA, if_true]
  | readBank c a =>
    have ha := fits5_iff.mp hwf
    have hc := c.code_lt
    simp only [encodeHeader, BitVec.toNat_ofNat] at hnum
    have hop : Word.opcode w = 7 := by rw [opcode_eq]; omega
    have hrsv : w.extractLsb' 22 1 ++ w.extractLsb' 0 21 = 0 := by
      simp only [append_eq_zero_iff, extractLsb'_eq_zero_iff]; omega
    have hA : Word.fieldA w = a := by rw [fieldA_eq]; omega
    have hC : Word.fieldC w = c := fieldC_of_digit (by omega)
    simp only [decodeHeader, hop, ifReservedZero, hrsv, hA, hC, if_true]
  | rmwField a u sh =>
    obtain ⟨ha, hsh⟩ := (Bool.and_eq_true _ _).mp hwf
    rw [fits5_iff] at ha hsh
    have hu := Bool.toNat_lt u
    simp only [encodeHeader, BitVec.toNat_ofNat] at hnum
    have hop : Word.opcode w = 8 := by rw [opcode_eq]; omega
    have hrsv : w.extractLsb' 5 17 = 0 := by rw [extractLsb'_eq_zero_iff]; omega
    have hA : Word.fieldA w = a := by rw [fieldA_eq]; omega
    have hU : Word.fieldU w = u := getLsbD_of_digit (by omega)
    have hS : Word.fieldS w = sh := by rw [fieldS_eq]; omega
    simp only [decodeHeader, hop, ifReservedZero, hrsv, hA, hU, hS, if_true]

/-- R73: a header word decodes to exactly the well-formed header that it encodes. -/
theorem decodeHeader_eq_some_iff {w : Word} {hd : Header} :
    decodeHeader w = some hd ↔ w = encodeHeader hd ∧ hd.wf = true :=
  ⟨eq_encodeHeader_of_decodeHeader, fun ⟨hw, hwf⟩ => decodeHeader_of_eq_encodeHeader hw hwf⟩

/-! #### The reserved bits of a header (R57 to R59) -/

/-- The mask of the `n` bits from bit `lo` up. -/
def fieldMask (lo n : Nat) : Word := BitVec.ofNat 32 ((2 ^ n - 1) * 2 ^ lo)

theorem getLsbD_fieldMask {lo n k : Nat} : (fieldMask lo n).getLsbD k = true ↔ k < 32 ∧ lo ≤ k ∧ k < lo + n := by
  rw [fieldMask, BitVec.getLsbD_ofNat, Nat.testBit_mul_two_pow, Nat.testBit_two_pow_sub_one]
  simp only [Bool.and_eq_true, decide_eq_true_iff]
  omega

/-- The mask of a field picks the field out. -/
theorem and_fieldMask_eq_zero_iff (h : Word) {lo n : Nat} (hfit : lo + n ≤ 32) :
    h &&& fieldMask lo n = 0 ↔ h.extractLsb' lo n = 0 := by
  simp only [BitVec.ofNat_eq_ofNat, BitVec.zero_iff_eq_false, BitVec.getLsbD_and, BitVec.getLsbD_extractLsb',
    Bool.eq_false_iff, ne_eq, Bool.and_eq_true, getLsbD_fieldMask, decide_eq_true_iff]
  constructor
  · rintro hmask k ⟨hk, hbit⟩
    exact hmask (lo + k) ⟨hbit, by omega, by omega, by omega⟩
  · rintro hfield k ⟨hbit, -, hlo, hhi⟩
    refine hfield (k - lo) ⟨by omega, ?_⟩
    rwa [Nat.add_sub_cancel' hlo]

theorem ifReservedZero_field_none (h : Word) {lo n : Nat} (hfit : lo + n ≤ 32) (hd : Header) :
    ifReservedZero (h.extractLsb' lo n) hd = none ↔ h &&& fieldMask lo n ≠ 0 :=
  ifReservedZero_none.trans (not_congr (and_fieldMask_eq_zero_iff h hfit).symm)

/-! #### The operand list -/

theorem Instr.wf_header (i : Instr) : i.header.wf = i.wf := by
  cases i <;> rfl

/-- The operand list is read back whole, whatever stands after it. -/
theorem decodeOperands_operands (i : Instr) (rest : List Token) :
    decodeOperands i.header (i.operands ++ rest) = .ok i rest := by
  cases i <;> rfl

/-- A command that is read has the header it was read for, and its operand list stands first. -/
theorem eq_operands_of_decodeOperands {hd : Header} {ts rest : List Token} {i : Instr}
    (h : decodeOperands hd ts = .ok i rest) : i.header = hd ∧ ts = i.operands ++ rest := by
  cases hd with
  | encFreq | encPhase | encAmp =>
    obtain ⟨x, ts, rfl, h⟩ := readQuantity_ok h
    cases h
    exact ⟨rfl, rfl⟩
  | setChen | readCur | readBank =>
    cases h
    exact ⟨rfl, rfl⟩
  | setField a u =>
    obtain ⟨v, ts, rfl, h⟩ := readWord_ok h
    cases h
    exact ⟨rfl, rfl⟩
  | rmwField a u sh =>
    obtain ⟨m, ts, rfl, h⟩ := readWord_ok h
    obtain ⟨v, ts, rfl, h⟩ := readWord_ok h
    cases h
    exact ⟨rfl, rfl⟩
  | rampOpt t =>
    obtain ⟨s0, ts, rfl, h⟩ := readQuantity_ok h
    obtain ⟨e0, ts, rfl, h⟩ := readQuantity_ok h
    obtain ⟨tr, ts, rfl, h⟩ := readQuantity_ok h
    obtain ⟨tf, ts, rfl, h⟩ := readQuantity_ok h
    cases h
    exact ⟨rfl, rfl⟩

end Sys2Proof

namespace Sys2Proof.Machine

/-- Settles O8: the header decodes to the command's (`decodeHeader_eq_some_iff`), and its operand list is read back. -/
theorem decodeOfEncodeIsTheCommand : Obligations.DecodeOfEncodeIsTheCommand := by
  intro i rest hwf
  have hhd : decodeHeader (encodeHeader i.header) = some i.header :=
    decodeHeader_eq_some_iff.mpr ⟨rfl, i.wf_header.trans hwf⟩
  exact (decode_of_header hhd _).trans (decodeOperands_operands i rest)

/-- Settles O9: the header word is its header's encoding (`decodeHeader_eq_some_iff`), and the items after it
are the operand list and the rest. -/
theorem decodedItemsAreTheEncoding : Obligations.DecodedItemsAreTheEncoding := by
  intro ts rest i h
  obtain ⟨w, hd, ts', rfl, hhd, hops⟩ := decode_ok h
  obtain ⟨rfl, rfl⟩ := eq_operands_of_decodeOperands hops
  obtain ⟨rfl, hwf⟩ := decodeHeader_eq_some_iff.mp hhd
  exact ⟨rfl, i.wf_header.symm.trans hwf⟩

/-- Settles O10: opcode by opcode, the reserved bits that the decoder compares with 0 are those of the table's mask. -/
theorem headerFaultsExactlyWhenReserved : Obligations.HeaderFaultsExactlyWhenReserved := by
  intro h
  rw [IllegalHeader, ← opcode_eq, decodeHeader]
  generalize Word.opcode h = op
  split
  case h_7 => -- READ_BANK
    change _ ↔ h &&& (fieldMask 22 1 ||| fieldMask 0 21) ≠ 0
    rw [ifReservedZero_none, ne_eq, append_eq_zero_iff, ← and_fieldMask_eq_zero_iff h (by decide),
      ← and_fieldMask_eq_zero_iff h (by decide), BitVec.and_or_distrib_left, ne_eq]
    exact not_congr BitVec.or_eq_zero_iff.symm
  case h_10 => simp [reservedBits] -- the reserved opcodes
  all_goals exact ifReservedZero_field_none h (by decide) _

/-- Settles O11: the decoder run on each word. -/
theorem specWordsDecode : Obligations.SpecWordsDecode := by
  unfold Obligations.SpecWordsDecode
  decide

/-! #### A step on what the decoder answers (R79, R171) -/

/-- A header that does not decode is answered `ILLEGAL_OP` (R64, R172). -/
theorem step_of_illegal {s : State} {rest : List Token} (hr : s.rst = false) (hd : decode s.cmd = .illegal rest) :
    step s = .next (({ s with cmd := rest } : State).takeFault .illegalOp) := by
  simp [step, hr, hd, deliver]

/-- An item that cannot be presented where it stands refuses the step (R65). -/
theorem step_of_refused {s : State} {e : PortError} (hr : s.rst = false) (hd : decode s.cmd = .refused e) :
    step s = .refused (.port e) := by
  simp [step, hr, hd]

/-- Settles O12: the step delivers the command's outcome (`step_of_decode`). -/
theorem stepRunsTheDecodedCommand : Obligations.StepRunsTheDecodedCommand := by
  intro s i rest hr hd
  rw [step_of_decode hr hd]
  constructor
  · intro t ht
    rw [ht]
    rfl
  · intro f hf
    rw [hf]
    rfl

/-- Settles O13: an illegal header does not decode (O10), and is answered at the step that reads it. -/
theorem illegalHeaderAnswersIllegalOp : Obligations.IllegalHeaderAnswersIllegalOp := by
  intro s h rest hr hcmd hillegal
  have hnone : decodeHeader h = none := (headerFaultsExactlyWhenReserved h).mpr hillegal
  have hd : decode s.cmd = .illegal rest := by rw [hcmd, decode_of_illegal hnone]
  exact step_of_illegal hr hd

/-! #### Presented items at the operand positions (R65) -/

/-- `f` reads operands of the kinds `ks`, one after another, before it answers. -/
inductive ReadsOperands : List OperandKind → (List Token → Decoded) → Prop
  | done (f : List Token → Decoded) : ReadsOperands [] f
  | word {ks : List OperandKind} {k : Word → List Token → Decoded} (h : ∀ w, ReadsOperands ks (k w)) :
      ReadsOperands (.word :: ks) fun ts => readWord ts k
  | quantity {ks : List OperandKind} {k : Rat → List Token → Decoded} (h : ∀ q, ReadsOperands ks (k q)) :
      ReadsOperands (.quantity :: ks) fun ts => readQuantity ts k

theorem decodeOperands_readsOperands (hd : Header) : ReadsOperands hd.operandKinds (decodeOperands hd) := by
  cases hd with
  | encFreq => exact .quantity fun _ => .done _
  | encPhase => exact .quantity fun _ => .done _
  | encAmp => exact .quantity fun _ => .done _
  | setChen e0 e1 => exact .done _
  | setField a u => exact .word fun _ => .done _
  | readCur a => exact .done _
  | readBank c a => exact .done _
  | rmwField a u sh => exact .word fun _ => .word fun _ => .done _
  | rampOpt t => exact .quantity fun _ => .quantity fun _ => .quantity fun _ => .quantity fun _ => .done _

theorem readQuantity_nonFinite {x : Quantity} (hx : ∀ q, x ≠ .fin q) (ts : List Token)
    (k : Rat → List Token → Decoded) : readQuantity (.quantity x :: ts) k = .refused .nonFinite := by
  cases x with
  | fin q => exact absurd rfl (hx q)
  | inf neg => rfl
  | nan => rfl

namespace ReadsOperands

variable {ks ks' : List OperandKind} {f : List Token → Decoded}

theorem quantity_for_word (hf : ReadsOperands (.word :: ks) f) (x : Quantity) (ts : List Token) :
    f (.quantity x :: ts) = .refused .operandKind := by
  cases hf
  exact readWord_quantity x ts _

theorem word_for_quantity (hf : ReadsOperands (.quantity :: ks) f) (w : Word) (ts : List Token) :
    f (.word w :: ts) = .refused .operandKind := by
  cases hf
  exact readQuantity_word w ts _

theorem nonFinite_for_quantity (hf : ReadsOperands (.quantity :: ks) f) {x : Quantity} (hx : ∀ q, x ≠ .fin q)
    (ts : List Token) : f (.quantity x :: ts) = .refused .nonFinite := by
  cases hf
  exact readQuantity_nonFinite hx ts _

/-- Presentable items are read; what follows them is read by what is left of the operand list. -/
theorem after_presentable {ts : List Token} (hf : ReadsOperands (ks ++ ks') f) (hts : List.Forall₂ Presentable ks ts) :
    ∃ g, ReadsOperands ks' g ∧ ∀ rest, f (ts ++ rest) = g rest := by
  induction hts generalizing f with
  | nil => exact ⟨f, hf, fun _ => rfl⟩
  | @cons k t ks ts hkt _ ih =>
    cases hf with
    | word h =>
      match t, hkt with
      | .word w, _ => exact ih (h w)
    | quantity h =>
      match t, hkt with
      | .quantity (.fin q), _ => exact ih (h q)

end ReadsOperands

/-- The operand list of a header, read past presentable items, goes on with the kinds that are left. -/
theorem decode_after_presentable {h : Word} {hd : Header} {ks ks' : List OperandKind} {ts : List Token}
    (hh : decodeHeader h = some hd) (hks : hd.operandKinds = ks ++ ks') (hts : List.Forall₂ Presentable ks ts) :
    ∃ g, ReadsOperands ks' g ∧ ∀ rest, decode (.word h :: (ts ++ rest)) = g rest := by
  have hreads := decodeOperands_readsOperands hd
  rw [hks] at hreads
  obtain ⟨g, hg, heq⟩ := hreads.after_presentable hts
  exact ⟨g, hg, fun rest => (decode_of_header hh _).trans (heq rest)⟩

/-- Settles O18: past the presentable items the decoder reads one operand of the kind at the position
(`decode_after_presentable`), which refuses the item there. -/
theorem unpresentableItemsAreRefused : Obligations.UnpresentableItemsAreRefused := by
  intro s rest hr
  refine ⟨fun h hd ks ks' ts hh hts => ⟨fun x hks hcmd => ?_, fun w hks hcmd => ?_, fun x hx hks hcmd => ?_⟩,
    fun x hcmd => step_of_refused hr (by rw [hcmd]; rfl)⟩
  · obtain ⟨g, hg, hdecode⟩ := decode_after_presentable hh hks hts
    exact step_of_refused hr (by rw [hcmd, hdecode, hg.quantity_for_word])
  · obtain ⟨g, hg, hdecode⟩ := decode_after_presentable hh hks hts
    exact step_of_refused hr (by rw [hcmd, hdecode, hg.word_for_quantity])
  · obtain ⟨g, hg, hdecode⟩ := decode_after_presentable hh hks hts
    exact step_of_refused hr (by rw [hcmd, hdecode, hg.nonFinite_for_quantity hx])

/-! #### RMW_FIELD as a sequence, and the subfield write (R72) -/

/-- A response given before a field write stands before the write's own, and changes nothing else of it. -/
theorem shadowWrite_respond (s : State) (st : Status) (d : Data) (a : Addr) (w : Word) (u : Bool) :
    (s.respond st d).shadowWrite a w u =
      { s.shadowWrite a w u with resp := s.resp ++ [⟨st, d⟩, ⟨.ok, .none⟩] } := by
  have hresp : s.resp ++ [⟨st, d⟩, ⟨.ok, .none⟩] = s.resp ++ [⟨st, d⟩] ++ [⟨.ok, .none⟩] := by simp
  rw [hresp]
  rfl

/-- Settles O40: both write the same merged word, SET_FIELD behind READ_CUR's response (`shadowWrite_respond`). -/
theorem rmwFieldIsReadThenSetField : Obligations.RmwFieldIsReadThenSetField := by
  intro s a u sh m v _
  have hmerge : (s.cur a &&& ~~~m) ||| BitVec.ofNat 32 (v.toNat * 2 ^ sh) = merge (s.cur a) m sh v := by
    rw [merge, shiftLeft_eq_ofNat]
  refine ⟨s.cur a, s.respond .ok (.word (s.cur a)), s.shadowWrite a (merge (s.cur a) m sh v) u,
    exec_readCur_in s a, rfl, exec_rmwField_in s a u sh m v, rfl, ?_⟩
  rw [hmerge, exec_setField_in, shadowWrite_respond]

theorem pseudoWriteSubfield_eq (a hi lo : Nat) (v : Word) (u : Bool) :
    pseudoWriteSubfield a hi lo v u = .rmwField a u lo (fieldMask lo (hi - lo + 1)) v := rfl

/-- Settles O41: inside the mask the current view is cleared, and outside it the shifted value has no bits, since it
fits the field (`merge_bit`). -/
theorem writeSubfieldReplacesOnlyItsBits : Obligations.WriteSubfieldReplacesOnlyItsBits := by
  intro s a hi lo v u hle hhi hv
  rw [pseudoWriteSubfield_eq]
  refine ⟨_, merge (s.cur a) (fieldMask lo (hi - lo + 1)) lo v, exec_rmwField_in s a u lo _ v, rfl, fun k hk => ?_⟩
  rw [merge_bit _ _ _ _ _ hk]
  split
  next hin =>
    have hmask : (fieldMask lo (hi - lo + 1)).getLsbD k = true := getLsbD_fieldMask.mpr (by omega)
    simp [hmask, hin.1]
  next hout =>
    have hmask : (fieldMask lo (hi - lo + 1)).getLsbD k = false := by
      rw [← Bool.not_eq_true, getLsbD_fieldMask]
      omega
    have hvalue : lo ≤ k → v.getLsbD (k - lo) = false := fun hlo =>
      Nat.testBit_lt_two_pow (hv.trans_le (Nat.pow_le_pow_right two_pos (by omega)))
    simp +contextual [hmask, hvalue]

end Sys2Proof.Machine

/-! ### The encoders: the word of a scaled value (40_encoder.md) -/

namespace Sys2Proof.Machine

/-! #### An encoder answers the wrapped truncation of its scaled value (R81, R84, R87) -/

section
variable {s : State} {x : Rat} {z : Int}

theorem exec_encFreq_of_trunc (h : trunc (scaledFreq s.par.numeric s.cfg.sysClk x) = z) :
    exec (.encFreq x) s = .next { s with resp := s.resp ++ [⟨.ok, .word (wrap 32 z)⟩] } := by
  subst h
  rfl

theorem exec_encPhase_of_trunc (h : trunc (scaledPhase s.par.numeric x) = z) :
    exec (.encPhase x) s = .next { s with resp := s.resp ++ [⟨.ok, .word14 (wrap 14 z)⟩] } := by
  subst h
  rfl

theorem exec_encAmp_of_trunc (h : trunc (scaledAmp s.par.numeric x) = z) :
    exec (.encAmp x) s = .next { s with resp := s.resp ++ [⟨.ok, .word10 (wrap 10 z)⟩] } := by
  subst h
  rfl

end

/-- Settles O23: the truncation is total, so each encoder has a word to wrap, whatever the scaled value is. -/
theorem encodersCompleteOnEveryOperand : Obligations.EncodersCompleteOnEveryOperand := fun _ _ =>
  ⟨⟨_, exec_encFreq_of_trunc rfl⟩, ⟨_, exec_encPhase_of_trunc rfl⟩, ⟨_, exec_encAmp_of_trunc rfl⟩⟩

/-- Settles O26: the scaled value is a function of the arithmetic, the operand and, for ENC_FREQ, `SYS_CLK`. -/
theorem encodersArePure : Obligations.EncodersArePure := by
  intro s s' x hn
  refine ⟨fun hc => ⟨_, exec_encFreq_of_trunc rfl, exec_encFreq_of_trunc ?_⟩,
    ⟨_, exec_encPhase_of_trunc rfl, exec_encPhase_of_trunc ?_⟩,
    ⟨_, exec_encAmp_of_trunc rfl, exec_encAmp_of_trunc ?_⟩⟩
  · rw [hn, hc]
  · rw [hn]
  · rw [hn]

/-! #### The scaled value in each arithmetic (R94) -/

theorem trunc_fin_eq (y : Rat) : trunc (.fin y) = Exact.trunc y := truncRat_eq y

theorem trunc_inf (b : Bool) : trunc (.inf b) = Config.nonFiniteInt .trunc (.inf b) := rfl

theorem mul_inf_of_pos (n : Numeric) (b : Bool) {a : Rat} (ha : 0 < a) : mul n (.inf b) (.fin a) = .inf b := by
  simp [mul, ha.ne', ha.not_gt]

theorem div_inf_of_pos (n : Numeric) (b : Bool) {a : Rat} (ha : 0 < a) : div n (.inf b) (.fin a) = .inf b := by
  simp [div, ha.not_gt]

/-- The amplitude's scale `2^10 − 1` (R87) as a numeral. -/
theorem ampScale_eq : (2 : Rat) ^ 10 - 1 = 1023 := by norm_num

section
variable {c x x' q : Rat} {b : Bool}

theorem scaledFreq_exact (hc : c ≠ 0) : scaledFreq .exact c x = .fin (x / c * 2 ^ 32) := by
  rw [scaledFreq, rnd_exact, div_exact hc, mul_exact]

theorem scaledPhase_exact : scaledPhase .exact x = .fin (x / 360 * 2 ^ 14) := by
  rw [scaledPhase, rnd_exact, div_exact (by norm_num), mul_exact]

theorem scaledAmp_exact : scaledAmp .exact x = .fin (x * 1023) := by
  rw [scaledAmp, rnd_exact, mul_exact, ampScale_eq]

theorem scaledFreq_binary64 (hc : c ≠ 0) (hx : round64 x = .fin x') (hq : round64 (x' / c) = .fin q) :
    scaledFreq .binary64 c x = round64 (q * 2 ^ 32) := by
  rw [scaledFreq, rnd_binary64, hx, div_fin _ hc, rnd_binary64, hq, mul_fin, rnd_binary64]

theorem scaledPhase_binary64 (hx : round64 x = .fin x') (hq : round64 (x' / 360) = .fin q) :
    scaledPhase .binary64 x = round64 (q * 2 ^ 14) := by
  rw [scaledPhase, rnd_binary64, hx, div_fin _ (by norm_num), rnd_binary64, hq, mul_fin, rnd_binary64]

theorem scaledAmp_binary64 (hx : round64 x = .fin x') : scaledAmp .binary64 x = round64 (x' * 1023) := by
  rw [scaledAmp, rnd_binary64, hx, mul_fin, rnd_binary64, ampScale_eq]

theorem scaledFreq_binary64_inf (hc : 0 < c) (hx : round64 x = .inf b) : scaledFreq .binary64 c x = .inf b := by
  rw [scaledFreq, rnd_binary64, hx, div_inf_of_pos _ _ hc, mul_inf_of_pos _ _ (by norm_num)]

theorem scaledPhase_binary64_inf (hx : round64 x = .inf b) : scaledPhase .binary64 x = .inf b := by
  rw [scaledPhase, rnd_binary64, hx, div_inf_of_pos _ _ (by norm_num), mul_inf_of_pos _ _ (by norm_num)]

theorem scaledAmp_binary64_inf (hx : round64 x = .inf b) : scaledAmp .binary64 x = .inf b := by
  rw [scaledAmp, rnd_binary64, hx, mul_inf_of_pos _ _ (by norm_num)]

end

/-- Settles O22: the scaled value is the rounded last product, or infinite with the operand's sign where the operand
overflows, and its truncation is wrapped. -/
theorem encodersComputeInBinary64Order : Obligations.EncodersComputeInBinary64Order := by
  intro s x hn
  refine ⟨fun x' hx => ⟨fun q hc hq => ⟨fun y hy => ?_, fun b hy => ?_⟩, fun q y hq hy => ?_, fun y hy => ?_,
    fun b hy => ?_⟩, fun b hx => ⟨fun hc => ?_, ?_, ?_⟩⟩
  · exact exec_encFreq_of_trunc (by rw [hn, scaledFreq_binary64 hc hx hq, hy, trunc_fin_eq])
  · exact exec_encFreq_of_trunc (by rw [hn, scaledFreq_binary64 hc hx hq, hy, trunc_inf])
  · exact exec_encPhase_of_trunc (by rw [hn, scaledPhase_binary64 hx hq, hy, trunc_fin_eq])
  · exact exec_encAmp_of_trunc (by rw [hn, scaledAmp_binary64 hx, hy, trunc_fin_eq])
  · exact exec_encAmp_of_trunc (by rw [hn, scaledAmp_binary64 hx, hy, trunc_inf])
  · exact exec_encFreq_of_trunc (by rw [hn, scaledFreq_binary64_inf hc hx, trunc_inf])
  · exact exec_encPhase_of_trunc (by rw [hn, scaledPhase_binary64_inf hx, trunc_inf])
  · exact exec_encAmp_of_trunc (by rw [hn, scaledAmp_binary64_inf hx, trunc_inf])

/-! #### The words of the default arithmetic (R81, R84, R87) -/

section
variable {s : State} (x : Rat) (hn : s.par.numeric = .exact)
include hn

theorem exec_encFreq_exact (hc : 0 < s.cfg.sysClk) : exec (.encFreq x) s = .next { s with
    resp := s.resp ++ [⟨.ok, .word (wrap 32 (Exact.trunc (x / s.cfg.sysClk * 2 ^ 32)))⟩] } :=
  exec_encFreq_of_trunc (by rw [hn, scaledFreq_exact hc.ne', trunc_fin_eq])

theorem exec_encPhase_exact : exec (.encPhase x) s = .next { s with
    resp := s.resp ++ [⟨.ok, .word14 (wrap 14 (Exact.trunc (x / 360 * 2 ^ 14)))⟩] } :=
  exec_encPhase_of_trunc (by rw [hn, scaledPhase_exact, trunc_fin_eq])

theorem exec_encAmp_exact : exec (.encAmp x) s = .next { s with
    resp := s.resp ++ [⟨.ok, .word10 (wrap 10 (Exact.trunc (x * 1023)))⟩] } :=
  exec_encAmp_of_trunc (by rw [hn, scaledAmp_exact, trunc_fin_eq])

end

/-- Settles O19: the answered word is the wrapped truncation, whose number is `wrap_toNat`. -/
theorem encFreqAnswersTuningWord : Obligations.EncFreqAnswersTuningWord := fun _ x hn hc =>
  ⟨_, wrap_toNat 32 _, exec_encFreq_exact x hn hc⟩

/-- Settles O20: the answered word is the wrapped truncation, whose number is `wrap_toNat`. -/
theorem encPhaseAnswersTuningWord : Obligations.EncPhaseAnswersTuningWord := fun _ x hn =>
  ⟨_, wrap_toNat 14 _, exec_encPhase_exact x hn⟩

/-- Settles O21: the answered word is the wrapped truncation, whose number is `wrap_toNat`. -/
theorem encAmpAnswersTuningWord : Obligations.EncAmpAnswersTuningWord := by
  intro s x hn
  rw [ampScale_eq]
  exact ⟨_, wrap_toNat 10 _, exec_encAmp_exact x hn⟩

/-! #### The wrapped truncation in range and below zero (R82, R85, R88, R90) -/

/-- A scaled value that fits the word loses only its fraction. -/
theorem toNat_wrap_trunc_of_nonneg {n : Nat} {y : Rat} (h0 : 0 ≤ y) (hy : y < 2 ^ n) :
    ((wrap n (Exact.trunc y)).toNat : Int) = ⌊y⌋ := by
  rw [wrap_toNat, Exact.trunc, if_pos h0]
  exact Int.emod_eq_of_lt (Int.floor_nonneg.mpr h0) (Int.floor_lt.mpr (by exact_mod_cast hy))

/-- A negative scaled value above `−2^N` truncates to 0, or to a negative number that wraps once. -/
theorem toNat_wrap_trunc_of_neg {n : Nat} {y : Rat} (hy : y < 0) (hn : -2 ^ n < y) :
    ((wrap n (Exact.trunc y)).toNat : Int) = if -1 < y then 0 else 2 ^ n - |⌈y⌉| := by
  rw [wrap_toNat, Exact.trunc, if_neg hy.not_ge]
  split
  next h =>
    have hceil : ⌈y⌉ = 0 := Int.ceil_eq_zero_iff.mpr ⟨h, hy.le⟩
    rw [hceil, Int.zero_emod]
  next h =>
    have hneg : ⌈y⌉ ≤ -1 := Int.ceil_le.mpr (by exact_mod_cast not_lt.mp h)
    have hlow : -2 ^ n < ⌈y⌉ := Int.lt_ceil.mpr (by exact_mod_cast hn)
    rw [abs_of_neg (by omega), sub_neg_eq_add, ← Int.add_emod_left]
    exact Int.emod_eq_of_lt (by omega) (by omega)

/-- With a quantum `g`, an operand `x = y × g` in range stands less than one quantum above the decoded value `v`. -/
theorem decoded_within_quantum {n : Nat} {x y v g : Rat} (hg : 0 < g) (h0 : 0 ≤ y) (hy : y < 2 ^ n) (hx : x = y * g)
    (hv : v = (wrap n (Exact.trunc y)).toNat * g) : 0 ≤ x - v ∧ x - v < g := by
  have hw : ((wrap n (Exact.trunc y)).toNat : Rat) = ⌊y⌋ := by exact_mod_cast toNat_wrap_trunc_of_nonneg h0 hy
  have hloss : x - v = Int.fract y * g := by rw [hx, hv, hw, ← sub_mul, Int.self_sub_floor]
  rw [hloss]
  exact ⟨mul_nonneg (Int.fract_nonneg y) hg.le, mul_lt_of_lt_one_left hg (Int.fract_lt_one y)⟩

/-- Settles O24: on its domain the scaled value fits the word, and what is lost is its fraction
(`decoded_within_quantum`). -/
theorem encodersLoseLessThanOneQuantum : Obligations.EncodersLoseLessThanOneQuantum := by
  intro s x hn h0
  refine ⟨fun hc hx => ⟨_, exec_encFreq_exact x hn hc, ?_⟩, fun hx => ⟨_, exec_encPhase_exact x hn, ?_⟩,
    fun hx => ⟨_, exec_encAmp_exact x hn, ?_⟩⟩
  · have hfits : x / s.cfg.sysClk * 2 ^ 32 < 2 ^ 32 := by
      rw [div_mul_eq_mul_div, div_lt_iff₀ hc]
      linarith
    exact decoded_within_quantum (by positivity) (by positivity) hfits (by field_simp) (by ring)
  · have hfits : x / 360 * 2 ^ 14 < 2 ^ 14 := by linarith
    exact decoded_within_quantum (by norm_num) (by positivity) hfits (by ring) (by ring)
  · have hfits : x * 1023 < 2 ^ 10 := by linarith
    exact decoded_within_quantum (by norm_num) (by positivity) hfits (by ring) (by ring)

/-- Settles O25: each scale is positive, so the scaled value is negative and wraps as `toNat_wrap_trunc_of_neg` says. -/
theorem encodersWrapNegativeValues : Obligations.EncodersWrapNegativeValues := by
  intro s x hn hx
  refine ⟨fun hc hlow => ⟨_, exec_encFreq_exact x hn hc, toNat_wrap_trunc_of_neg ?_ hlow⟩,
    fun hlow => ⟨_, exec_encPhase_exact x hn, toNat_wrap_trunc_of_neg ?_ hlow⟩,
    fun hlow => ⟨_, exec_encAmp_exact x hn, toNat_wrap_trunc_of_neg ?_ hlow⟩⟩
  · exact mul_neg_of_neg_of_pos (div_neg_of_neg_of_pos hx hc) (by norm_num)
  · linarith
  · linarith

end Sys2Proof.Machine

/-! ### The register shadow: its commands, field writes in sequence, and the corners (41_register_shadow.md) -/

namespace Sys2Proof.Machine

/-! #### The commands at every address (R43, R101, R108) -/

theorem exec_setChen (s : State) (e0 e1 : Bool) :
    exec (.setChen e0 e1) s = .next ((s.setChen e0 e1).respond .ok .none) := rfl

/-- READ_BANK at an address that exists answers the named bank's word (R108). -/
theorem exec_readBank_in (s : State) (c : Channel) (a : Addr) :
    exec (.readBank c a.val) s = .next (s.respond .ok (.word (s.word c a))) := by
  simp only [exec, execReadBank, withAddr_in]

section
variable (s : State) {a : Nat} (h : 25 ≤ a)
include h

theorem exec_setField_out (u : Bool) (v : Word) : exec (.setField a u v) s = .fault .addrRange := by
  rw [exec, execSetField, withAddr_out h]

theorem exec_readCur_out : exec (.readCur a) s = .fault .addrRange := by
  rw [exec, execReadCur, withAddr_out h]

theorem exec_readBank_out (c : Channel) : exec (.readBank c a) s = .fault .addrRange := by
  rw [exec, execReadBank, withAddr_out h]

theorem exec_rmwField_out (u : Bool) (sh : Nat) (m v : Word) : exec (.rmwField a u sh m v) s = .fault .addrRange := by
  rw [exec, execRmwField, withAddr_out h]

end

/-- Settles O27: the enable pair and the response are all that `exec_setChen` writes. -/
theorem setChenWritesOnlyTheEnables : Obligations.SetChenWritesOnlyTheEnables := exec_setChen

/-- Settles O30: the named bank's word at an address that exists, and one word for both banks where they agree. -/
theorem readBankAnswersBankWord : Obligations.ReadBankAnswersBankWord := by
  intro s
  refine ⟨fun c a ha => exec_readBank_out s ha c, exec_readBank_in s, fun heq a ha => ?_⟩
  have hword : s.word .ch0 a = s.word .ch1 a := (sharedEqual_iff s).mp heq a ha
  rw [exec_readBank_in, exec_readBank_in, hword]

/-! #### The merged view for each enable pair (R26) -/

section
variable {s : State}

theorem cur_of_both (h0 : s.chen0 = true) (h1 : s.chen1 = true) (a : Addr) :
    s.cur a = s.word .ch0 a ||| s.word .ch1 a := by
  simp [cur_def, h0, h1]

theorem cur_of_only_ch0 (h0 : s.chen0 = true) (h1 : s.chen1 = false) (a : Addr) : s.cur a = s.word .ch0 a := by
  simp [cur_def, h0, h1]

theorem cur_of_only_ch1 (h0 : s.chen0 = false) (h1 : s.chen1 = true) (a : Addr) : s.cur a = s.word .ch1 a := by
  simp [cur_def, h0, h1]

theorem cur_of_none (h0 : s.chen0 = false) (h1 : s.chen1 = false) (a : Addr) : s.cur a = 0 := by
  simp [cur_def, h0, h1]

end

/-- Settles O29: READ_CUR answers the merged view, which each of the four enable pairs makes the word named. -/
theorem readCurAnswersMergedView : Obligations.ReadCurAnswersMergedView := by
  intro s
  refine ⟨fun a ha => exec_readCur_out s ha, fun a => (exec_readCur_in s a).trans ?_⟩
  refine congrArg (fun w => Host.Outcome.next (s.respond .ok (.word w))) ?_
  split
  next h0 h1 => exact cur_of_both h0 h1 a
  next h0 h1 => exact cur_of_only_ch0 h0 h1 a
  next h0 h1 => exact cur_of_only_ch1 h0 h1 a
  next h0 h1 => exact cur_of_none h0 h1 a

/-! #### What a field write changes and what it leaves (R102, R103, R107) -/

theorem word_shadowWrite_of_targets {s : State} {c : Channel} {a : Addr} (h : a.val < 3 ∨ s.enabled c = true)
    (w : Word) (u : Bool) : (s.shadowWrite a w u).word c a = w := by
  rw [State.word_shadowWrite, word_writeReg_self, if_pos h]

/-- The whole effect: the targeted banks at the address, no other word, one event, one response. -/
theorem shadowWrite_effect (s : State) (a : Addr) (w : Word) (u : Bool) :
    (∀ c, (s.shadowWrite a w u).word c a = if a.val < 3 ∨ s.enabled c = true then w else s.word c a) ∧
    (∀ c b, b ≠ a → (s.shadowWrite a w u).word c b = s.word c b) ∧
    s.shadowWrite a w u = { s with
      bank0 := (s.shadowWrite a w u).bank0, bank1 := (s.shadowWrite a w u).bank1,
      wev := s.wev ++ [⟨a, w, u⟩], resp := s.resp ++ [⟨.ok, .none⟩] } := by
  refine ⟨fun c => ?_, fun c b hb => ?_, rfl⟩
  · rw [State.word_shadowWrite, word_writeReg_self]
  · rw [State.word_shadowWrite, word_writeReg_ne s hb]

/-- Settles O28: at an address that exists SET_FIELD is the field write of its operand. -/
theorem setFieldWritesTargetedBanks : Obligations.SetFieldWritesTargetedBanks := fun s u v =>
  ⟨fun _ ha => exec_setField_out s ha u v, fun a => ⟨_, exec_setField_in s a u v, shadowWrite_effect s a v u⟩⟩

theorem merge_eq_ofNat (cur m : Word) (sh : Nat) (v : Word) :
    merge cur m sh v = (cur &&& ~~~m) ||| BitVec.ofNat 32 (v.toNat * 2 ^ sh) := by
  rw [merge, shiftLeft_eq_ofNat]

/-- Settles O31: at an address that exists RMW_FIELD is the field write of the merged word. -/
theorem rmwFieldWritesMergedWord : Obligations.RmwFieldWritesMergedWord := fun s u sh m v _ =>
  ⟨fun _ ha => exec_rmwField_out s ha u sh m v, fun a =>
    ⟨_, _, exec_rmwField_in s a u sh m v, merge_eq_ofNat (s.cur a) m sh v, shadowWrite_effect s a _ u⟩⟩

/-- Settles O32: the emitted word is the merge, whose bits `merge_bit` gives. -/
theorem rmwFieldMergesBitByBit : Obligations.RmwFieldMergesBitByBit := fun s a u sh m v _ =>
  ⟨_, _, exec_rmwField_in s a u sh m v, State.shadowWrite_wev s a _ u, merge_bit (s.cur a) m sh v⟩

/-- Settles O33: both banks are targeted, so both hold the merge over the OR of the two old words. -/
theorem rmwFieldCopiesDivergentBits : Obligations.RmwFieldCopiesDivergentBits := by
  intro s a u sh m v h0 h1 _
  have henabled (c : Channel) : s.enabled c = true := by
    cases c with
    | ch0 => exact h0
    | ch1 => exact h1
  have hword (c : Channel) := word_shadowWrite_of_targets (a := a) (.inr (henabled c)) (merge (s.cur a) m sh v) u
  refine ⟨_, exec_rmwField_in s a u sh m v, (hword .ch0).trans (hword .ch1).symm, fun c => ?_⟩
  rw [hword c, cur_of_both h0 h1, merge]

theorem shadowWrite_flag (s : State) (a : Addr) (w : Word) (u u' : Bool) :
    s.shadowWrite a w u' = { s.shadowWrite a w u with wev := s.wev ++ [⟨a, w, u'⟩] } := rfl

/-- Settles O39: the word does not depend on the flag, and of the write only the event does (`shadowWrite_flag`). -/
theorem applyFlagReachesOnlyTheEvent : Obligations.ApplyFlagReachesOnlyTheEvent := by
  rintro s a u u' sh m v i i' - (⟨rfl, rfl⟩ | ⟨rfl, rfl⟩)
  · exact ⟨_, _, _, exec_rmwField_in s a u sh m v, exec_rmwField_in s a u' sh m v, rfl, shadowWrite_flag s a _ u u'⟩
  · exact ⟨_, _, _, exec_setField_in s a u v, exec_setField_in s a u' v, rfl, shadowWrite_flag s a v u u'⟩

/-! #### Two field writes of one register (R114 to R116) -/

/-- The view after a field write, as `cur_writeReg` gives it: a response and an event do not reach it. -/
theorem cur_shadowWrite (s : State) (a : Addr) (w : Word) (u : Bool) :
    (s.shadowWrite a w u).cur a = if s.chen0 || s.chen1 then w else 0 := cur_writeReg s a w

/-- Of two writes at one address the last one alone remains. -/
theorem bankAfterWrite_shadowWrite (s : State) (a : Addr) (w w' : Word) (u : Bool) (c : Channel) :
    (s.shadowWrite a w u).bankAfterWrite c a w' = s.bankAfterWrite c a w' := by
  have hbank : (s.shadowWrite a w u).bank c = s.bankAfterWrite c a w := by cases c <;> rfl
  have htargets : (s.shadowWrite a w u).targets c a = s.targets c a := by simp [State.targets]
  rw [State.bankAfterWrite, State.bankAfterWrite, hbank, htargets, State.bankAfterWrite]
  by_cases h : s.targets c a = true
  · simp only [if_pos h, Vector.set_set]
  · simp only [if_neg h]

/-- Two writes in one order and two in the other leave the same bank where the two last ones alone would. -/
theorem bankAfterWrite_shadowWrite_congr {s : State} {a : Addr} {c : Channel} {w w' : Word}
    (h : s.bankAfterWrite c a w = s.bankAfterWrite c a w') (x x' : Word) (u u' : Bool) :
    (s.shadowWrite a x u).bankAfterWrite c a w = (s.shadowWrite a x' u').bankAfterWrite c a w' := by
  rw [bankAfterWrite_shadowWrite, bankAfterWrite_shadowWrite, h]

/-- A command that writes a field writes some word; performed again in the state it leaves, it writes that word again.
RMW_FIELD then reads back what it wrote or, with no channel enabled, reads 0 both times. -/
theorem exec_fieldWrite_again {a : Addr} {u : Bool} {sh : Nat} {m v : Word} {i : Instr}
    (hi : i = .rmwField a.val u sh m v ∨ i = .setField a.val u v) (s : State) :
    ∃ w, exec i s = .next (s.shadowWrite a w u) ∧
      exec i (s.shadowWrite a w u) = .next ((s.shadowWrite a w u).shadowWrite a w u) := by
  obtain rfl | rfl := hi
  · refine ⟨_, exec_rmwField_in s a u sh m v, ?_⟩
    rw [exec_rmwField_in, cur_shadowWrite]
    split
    next => rw [merge_merge]
    next hnone =>
      obtain ⟨h0, h1⟩ : s.chen0 = false ∧ s.chen1 = false := by simpa using hnone
      rw [cur_of_none h0 h1]
  · exact ⟨v, exec_setField_in s a u v, exec_setField_in _ a u v⟩

/-- Settles O38: at a shared address the write targets both banks. -/
theorem sharedWriteMakesBanksEqual : Obligations.SharedWriteMakesBanksEqual := by
  intro s a u sh m v i ha _ hi
  obtain ⟨w, hexec, -⟩ := exec_fieldWrite_again hi s
  have hword (c : Channel) : (s.shadowWrite a w u).word c a = w := word_shadowWrite_of_targets (.inl ha) w u
  exact ⟨_, hexec, (hword .ch0).trans (hword .ch1).symm⟩

/-- Settles O35: the second write is of the same word (`exec_fieldWrite_again`), and it alone remains. -/
theorem maskedWritesAreIdempotent : Obligations.MaskedWritesAreIdempotent := by
  intro s a u sh m v i _ hi
  obtain ⟨w, hfirst, hsecond⟩ := exec_fieldWrite_again hi s
  exact ⟨_, _, ⟨a, w, u⟩, hfirst, hsecond, bankAfterWrite_shadowWrite s a w w u .ch0,
    bankAfterWrite_shadowWrite s a w w u .ch1, rfl, rfl, rfl, by simp⟩

/-- Two merges under disjoint masks, the first value inside its mask: the second merge keeps the first field. -/
theorem merge_merge_of_disjoint {mA mB vA : Word} {sA : Nat} (hdisjoint : mA &&& mB = 0)
    (hA : (vA <<< sA) &&& ~~~mA = 0) (cur : Word) (sB : Nat) (vB : Word) :
    merge (merge cur mA sA vA) mB sB vB = (cur &&& ~~~(mA ||| mB)) ||| (vA <<< sA) ||| (vB <<< sB) := by
  have hkept : (vA <<< sA) &&& ~~~mB = vA <<< sA := by
    apply BitVec.eq_of_getLsbD_eq
    intro k hk
    have hdisjointBit : (mA.getLsbD k && mB.getLsbD k) = false := by
      simpa using congrArg (·.getLsbD k) hdisjoint
    have hinside : (vA <<< sA).getLsbD k = true → mA.getLsbD k = true := by
      simpa [hk] using congrArg (·.getLsbD k) hA
    rw [BitVec.getLsbD_and, BitVec.getLsbD_not]
    cases hbit : (vA <<< sA).getLsbD k with
    | false => rfl
    | true => simpa [hk, hinside hbit] using hdisjointBit
  rw [merge, merge, BitVec.and_or_distrib_right, hkept, BitVec.not_or, BitVec.and_assoc]

/-- The same two merges in either order. -/
theorem merge_comm_of_disjoint {mA mB vA vB : Word} {sA sB : Nat} (hdisjoint : mA &&& mB = 0)
    (hA : (vA <<< sA) &&& ~~~mA = 0) (hB : (vB <<< sB) &&& ~~~mB = 0) (cur : Word) :
    merge (merge cur mA sA vA) mB sB vB = merge (merge cur mB sB vB) mA sA vA := by
  rw [merge_merge_of_disjoint hdisjoint hA, merge_merge_of_disjoint ((BitVec.and_comm ..).trans hdisjoint) hB,
    BitVec.or_comm mB mA]
  ac_rfl

/-- With a channel enabled RMW_FIELD of the register just written merges into the word written. -/
theorem exec_rmwField_after_shadowWrite {s : State} (henabled : s.chen0 = true ∨ s.chen1 = true) (a : Addr) (w : Word)
    (u u' : Bool) (sh : Nat) (m v : Word) :
    exec (.rmwField a.val u' sh m v) (s.shadowWrite a w u) =
      .next ((s.shadowWrite a w u).shadowWrite a (merge w m sh v) u') := by
  have hcur : (s.shadowWrite a w u).cur a = w := by simp [cur_shadowWrite, henabled]
  rw [exec_rmwField_in, hcur]

/-! #### No channel enabled (R106, R113) -/

section
variable {s : State} (h0 : s.chen0 = false) (h1 : s.chen1 = false)
include h0 h1

/-- The view reads 0, so the shifted value alone is written. -/
theorem exec_rmwField_of_none (a : Addr) (u : Bool) (sh : Nat) (m v : Word) :
    exec (.rmwField a.val u sh m v) s = .next (s.shadowWrite a (v <<< sh) u) := by
  have hmerge : merge 0 m sh v = v <<< sh := by simp [merge]
  rw [exec_rmwField_in, cur_of_none h0 h1, hmerge]

theorem not_targeted_of_none {a : Addr} (ha : 3 ≤ a.val) (c : Channel) : ¬ (a.val < 3 ∨ s.enabled c = true) := by
  cases c with
  | ch0 => simp [h0, ha]
  | ch1 => simp [h1, ha]

/-- At an address that is not shared a write reaches no bank. -/
theorem bankAfterWrite_of_none {a : Addr} (ha : 3 ≤ a.val) (c : Channel) (w : Word) :
    s.bankAfterWrite c a w = s.bank c := by
  have htargets : ¬ s.targets c a = true := (targets_iff s c a).not.mpr (not_targeted_of_none h0 h1 ha c)
  rw [State.bankAfterWrite, if_neg htargets]

theorem shadowWrite_of_none {a : Addr} (ha : 3 ≤ a.val) (w : Word) (u : Bool) :
    s.shadowWrite a w u = { s with wev := s.wev ++ [⟨a, w, u⟩], resp := s.resp ++ [⟨.ok, .none⟩] } := by
  obtain ⟨-, -, hframe⟩ := shadowWrite_effect s a w u
  rw [State.shadowWrite_bank0, State.shadowWrite_bank1, bankAfterWrite_of_none h0 h1 ha,
    bankAfterWrite_of_none h0 h1 ha] at hframe
  exact hframe

end

/-- Settles O34: the shifted value is written, which nothing targets at 3 to 24 and both banks hold below 3. -/
theorem noChannelWritesDiscardOldBits : Obligations.NoChannelWritesDiscardOldBits := by
  intro s a u sh m v h0 h1 _
  refine ⟨fun ha => ?_, fun ha => ⟨_, exec_rmwField_of_none h0 h1 a u sh m v, fun c b => ?_, rfl⟩, fun ha => ?_⟩
  · rw [exec_rmwField_of_none h0 h1, shadowWrite_of_none h0 h1 ha]
  · simp [word_writeReg, ha]
  · rw [exec_setField_in, shadowWrite_of_none h0 h1 ha]

/-- Settles O37: each of the two writes is of its own shifted value and reaches both banks. -/
theorem noChannelSharedWritesDoNotCommute : Obligations.NoChannelSharedWritesDoNotCommute := by
  intro s a u u' sA sB mA mB vA vB _ _ ha h0 h1
  exact ⟨_, _, exec_rmwField_of_none h0 h1 a u sA mA vA,
    exec_rmwField_of_none (s := s.shadowWrite a _ u) h0 h1 a u' sB mB vB, fun c =>
    ⟨word_shadowWrite_of_targets (.inl ha) _ u, word_shadowWrite_of_targets (.inl ha) _ u'⟩⟩

/-- Settles O36: of two writes the last word alone remains. With a channel enabled it is the two merges in turn, the
same in either order; with none the address is not shared, and nothing is targeted. -/
theorem disjointMaskedWritesCommute : Obligations.DisjointMaskedWritesCommute := by
  intro s a u u' sA sB mA mB vA vB _ _ hcorner hdisjoint hA hB
  by_cases henabled : s.chen0 = true ∨ s.chen1 = true
  · have hmerge := merge_comm_of_disjoint hdisjoint hA hB (s.cur a)
    refine ⟨_, _, _, _, exec_rmwField_in s a u sA mA vA, exec_rmwField_after_shadowWrite henabled a _ u u' sB mB vB,
      exec_rmwField_in s a u' sB mB vB, exec_rmwField_after_shadowWrite henabled a _ u' u sA mA vA,
      bankAfterWrite_shadowWrite_congr (congrArg (s.bankAfterWrite .ch0 a) hmerge) _ _ u u',
      bankAfterWrite_shadowWrite_congr (congrArg (s.bankAfterWrite .ch1 a) hmerge) _ _ u u', fun c hc => ?_⟩
    have htargets : a.val < 3 ∨ (s.shadowWrite a (merge (s.cur a) mA sA vA) u).enabled c = true := by
      rwa [State.enabled_shadowWrite]
    rw [word_shadowWrite_of_targets htargets, merge_merge_of_disjoint hdisjoint hA]
  · obtain ⟨h0, h1⟩ : s.chen0 = false ∧ s.chen1 = false := by simpa using henabled
    have ha : 3 ≤ a.val := by simpa [h0, h1] using hcorner
    have hbank (c : Channel) : s.bankAfterWrite c a (vB <<< sB) = s.bankAfterWrite c a (vA <<< sA) := by
      rw [bankAfterWrite_of_none h0 h1 ha, bankAfterWrite_of_none h0 h1 ha]
    exact ⟨_, _, _, _, exec_rmwField_of_none h0 h1 a u sA mA vA,
      exec_rmwField_of_none (s := s.shadowWrite a _ u) h0 h1 a u' sB mB vB, exec_rmwField_of_none h0 h1 a u' sB mB vB,
      exec_rmwField_of_none (s := s.shadowWrite a _ u') h0 h1 a u sA mA vA,
      bankAfterWrite_shadowWrite_congr (hbank .ch0) _ _ u u',
      bankAfterWrite_shadowWrite_congr (hbank .ch1) _ _ u u',
      fun c hc => absurd hc (not_targeted_of_none h0 h1 ha c)⟩

end Sys2Proof.Machine

/-! ### The ramp optimizer: candidates, legs and responses (42_ramp_optimizer.md) -/

namespace Sys2Proof.Machine

/-! #### One candidate, in either arithmetic (R134 to R140) -/

section
variable {n : Numeric} {fom : Fom} {sync : Rat} {D S0s T : Quantity} {sh d : Nat} {rising : Bool} {c : Candidate}

/-- Every arithmetic gives a candidate its own divider and a positive, aligned delta word. -/
theorem candidate_valid (h : candidate n fom sync D S0s T sh rising d = some c) :
    c.d = d ∧ 0 < c.dw ∧ (2 ^ sh : Int) ∣ c.dw := by
  simp only [candidate] at h
  split at h
  · cases h
  · split at h
    · cases h
    · next hdw =>
      split at h
      · cases h
      · cases h
        exact ⟨rfl, not_le.mp hdw, (floorTo_spec _ (by positivity)).1⟩

/-- The falling leg reads no low end: its guard is not evaluated (R140). -/
theorem candidate_falling (S0s S0s' : Quantity) :
    candidate n fom sync D S0s T sh false d = candidate n fom sync D S0s' T sh false d := by
  simp [candidate]

/-- What a leg finds is one of its candidates. -/
theorem leg_valid (h : leg n fom sync D S0s T sh rising = some c) :
    1 ≤ c.d ∧ c.d ≤ 255 ∧ 0 < c.dw ∧ (2 ^ sh : Int) ∣ c.dw ∧ candidate n fom sync D S0s T sh rising c.d = some c := by
  obtain ⟨d, hd, hc⟩ := bestOf_mem h
  obtain ⟨rfl, hdw, hdvd⟩ := candidate_valid hc
  obtain ⟨h1, h2⟩ := mem_dividers.mp hd
  exact ⟨h1, h2, hdw, hdvd, hc⟩

end

/-! #### The selection: least merit, the lowest divider of equals (R143) -/

theorem bestOf_concat (cand : Nat → Option Candidate) (ds : List Nat) (d : Nat) :
    bestOf cand (ds ++ [d]) = better (bestOf cand ds) (cand d) := List.foldl_concat ..

/-- Of two candidates `better` keeps the earlier one unless the later is strictly less. -/
theorem better_cases {b e c : Candidate} (h : better (some b) (some e) = some c) :
    (lt e.j b.j = true ∧ c = e) ∨ (lt e.j b.j = false ∧ c = b) := by
  rw [better_some_some] at h
  split at h
  · next hlt => exact .inl ⟨hlt, (Option.some.inj h).symm⟩
  · next hlt => exact .inr ⟨by simpa using hlt, (Option.some.inj h).symm⟩

/-- `c` is selected from the candidates of `ds`: it is one of them, none has a lesser merit, and those of equal merit
have no lower divider. -/
def Selected (cand : Nat → Option Candidate) (ds : List Nat) (c : Candidate) : Prop :=
  (c.d ∈ ds ∧ cand c.d = some c) ∧
    ∀ d ∈ ds, ∀ e, cand d = some e → lt e.j c.j = false ∧ (e.j = c.j → c.d ≤ d)

theorem lt_self (x : Quantity) : lt x x = false := by
  cases x with
  | fin q => simp
  | inf b => cases b <;> rfl
  | nan => rfl

/-- What is not less than a finite `y` is greater than what is. -/
theorem above_of_lt {x y z : Quantity} (hx : ∃ J, x = .fin J) (hy : ∃ J, y = .fin J) (hz : ∃ J, z = .fin J)
    (hzy : lt z y = true) (hxy : lt x y = false) : lt x z = false ∧ x ≠ z := by
  obtain ⟨⟨a, rfl⟩, ⟨b, rfl⟩, ⟨c, rfl⟩⟩ := And.intro hx (And.intro hy hz)
  have hlt : c < a := (of_decide_eq_true hzy).trans_le (not_lt.mp (of_decide_eq_false hxy))
  exact ⟨decide_eq_false hlt.not_gt, fun heq => hlt.ne' (Quantity.fin.inj heq)⟩

/-- A later candidate that is not less leaves the selected one. -/
theorem Selected.concat {cand : Nat → Option Candidate} {ds : List Nat} {d : Nat} {c : Candidate}
    (h : Selected cand ds c) (hds : ∀ x ∈ ds, x < d) (hd : ∀ e, cand d = some e → lt e.j c.j = false) :
    Selected cand (ds ++ [d]) c := by
  obtain ⟨⟨hmem, hc⟩, hbest⟩ := h
  refine ⟨⟨List.mem_append_left _ hmem, hc⟩, fun x hx e he => ?_⟩
  obtain hx | hx := List.mem_append.mp hx
  · exact hbest x hx e he
  · obtain rfl := List.mem_singleton.mp hx
    exact ⟨hd e he, fun _ => (hds _ hmem).le⟩

/-- A later candidate that is less than all before it is selected. -/
theorem selected_concat_new {cand : Nat → Option Candidate} {ds : List Nat} {d : Nat} {c : Candidate}
    (hc : cand d = some c) (hd : c.d = d)
    (hless : ∀ x ∈ ds, ∀ e, cand x = some e → lt e.j c.j = false ∧ e.j ≠ c.j) : Selected cand (ds ++ [d]) c := by
  subst hd
  refine ⟨⟨by simp, hc⟩, fun x hx e he => ?_⟩
  obtain hx | hx := List.mem_append.mp hx
  · exact ⟨(hless x hx e he).1, fun heq => absurd heq (hless x hx e he).2⟩
  · obtain rfl := List.mem_singleton.mp hx
    obtain rfl := Option.some.inj (hc.symm.trans he)
    exact ⟨lt_self _, fun _ => le_rfl⟩

/-- Over ascending dividers, with finite merits, the best candidate is the selected one. -/
theorem bestOf_selected {cand : Nat → Option Candidate} (hd : ∀ d e, cand d = some e → e.d = d) {ds : List Nat}
    (hds : ds.Pairwise (· < ·)) (hfin : ∀ d ∈ ds, ∀ e, cand d = some e → ∃ J, e.j = .fin J) {c : Candidate}
    (h : bestOf cand ds = some c) : Selected cand ds c := by
  induction ds using List.reverseRecOn generalizing c with
  | nil => cases h
  | append_singleton ds d ih =>
    obtain ⟨hds, -, hlt⟩ := List.pairwise_append.mp hds
    have hlast : ∀ x ∈ ds, x < d := fun x hx => hlt x hx d (by simp)
    have hfin' : ∀ x ∈ ds, ∀ e, cand x = some e → ∃ J, e.j = .fin J := fun x hx => hfin x (List.mem_append_left _ hx)
    rw [bestOf_concat] at h
    cases hb : bestOf cand ds with
    | none =>
      rw [hb, better_none] at h
      exact selected_concat_new h (hd d c h) fun x hx e he => by simp [bestOf_none.mp hb x hx] at he
    | some b =>
      have hsel := ih hds hfin' hb
      cases he : cand d with
      | none =>
        rw [hb, he, better_some_none] at h
        obtain rfl := Option.some.inj h
        exact hsel.concat hlast fun e he' => by simp [he] at he'
      | some e =>
        rw [hb, he] at h
        obtain ⟨hless, rfl⟩ | ⟨hkeep, rfl⟩ := better_cases h
        · obtain ⟨⟨hmem, hcand⟩, hbest⟩ := hsel
          exact selected_concat_new he (hd d _ he) fun x hx e' he' => above_of_lt (hfin' x hx e' he')
            (hfin' _ hmem b hcand) (hfin d (by simp) _ he) hless (hbest x hx e' he').1
        · exact hsel.concat hlast fun e' he' => by rwa [← Option.some.inj (he.symm.trans he')]

theorem dividers_ascending : dividers.Pairwise (· < ·) := List.pairwise_lt_range'

/-- A leg whose merits are finite answers the selected candidate of the dividers 1 .. 255. -/
theorem leg_selected {n : Numeric} {fom : Fom} {sync : Rat} {D S0s T : Quantity} {sh : Nat} {rising : Bool}
    {c : Candidate}
    (hfin : ∀ d ∈ dividers, ∀ e, candidate n fom sync D S0s T sh rising d = some e → ∃ J, e.j = .fin J)
    (h : leg n fom sync D S0s T sh rising = some c) :
    Selected (candidate n fom sync D S0s T sh rising) dividers c :=
  bestOf_selected (fun _ _ he => (candidate_valid he).1) dividers_ascending hfin h

/-! #### The legs under exact arithmetic -/

section
variable {fom : Fom} {f : Rat → Rat → Rat → Int → Int → Rat} {sync D S0s T : Rat} {sh d : Nat} {rising : Bool}
  {c : Candidate}

theorem Exact.Survives.mem_dividers (h : Exact.Survives sync D S0s T sh rising d) : d ∈ dividers :=
  Machine.mem_dividers.mpr ⟨h.1, h.2.1⟩

/-- A surviving divider gives its candidate (R134). -/
theorem candidate_of_survives (hs : 0 < sync) (h : Exact.Survives sync D S0s T sh rising d) :
    candidate .exact fom sync (.fin D) (.fin S0s) (.fin T) sh rising d =
      some ⟨d, Exact.deltaWord sync D T sh d, fom (.fin D) (.fin T) (.fin (d / sync)) (Exact.deltaWord sync D T sh d)
        ⌊D / (Exact.deltaWord sync D T sh d : Rat)⌋⟩ := by
  obtain ⟨-, hc⟩ | ⟨hn, -⟩ := candidate_exact fom hs D S0s T sh rising h.1 h.2.1
  · exact hc
  · exact absurd h hn

theorem candidate_eq_none_iff (hs : 0 < sync) (hd : d ∈ dividers) :
    candidate .exact fom sync (.fin D) (.fin S0s) (.fin T) sh rising d = none ↔
      ¬ Exact.Survives sync D S0s T sh rising d := by
  obtain ⟨h1, h2⟩ := mem_dividers.mp hd
  obtain ⟨hv, hc⟩ | ⟨hv, hc⟩ := candidate_exact fom hs D S0s T sh rising h1 h2
  · simp [hc, hv]
  · simp [hc, hv]

theorem survives_of_candidate (hs : 0 < sync) (hd : d ∈ dividers)
    (h : candidate .exact fom sync (.fin D) (.fin S0s) (.fin T) sh rising d = some c) :
    Exact.Survives sync D S0s T sh rising d := by
  by_contra hv
  simp [(candidate_eq_none_iff hs hd).mpr hv] at h

/-- A leg finds nothing exactly when no divider survives (R144). -/
theorem leg_eq_none_iff (hs : 0 < sync) : leg .exact fom sync (.fin D) (.fin S0s) (.fin T) sh rising = none ↔
    ∀ d, ¬ Exact.Survives sync D S0s T sh rising d :=
  bestOf_none.trans ⟨fun h d hv => (candidate_eq_none_iff hs hv.mem_dividers).mp (h d hv.mem_dividers) hv,
    fun h d hd => (candidate_eq_none_iff hs hd).mpr (h d)⟩

/-- What a leg finds survives, with the delta word of R136. -/
theorem leg_survives (hs : 0 < sync) (h : leg .exact fom sync (.fin D) (.fin S0s) (.fin T) sh rising = some c) :
    Exact.Survives sync D S0s T sh rising c.d ∧ c.dw = Exact.deltaWord sync D T sh c.d := by
  obtain ⟨h1, h2, -, -, hc⟩ := leg_valid h
  have hv := survives_of_candidate hs (mem_dividers.mpr ⟨h1, h2⟩) hc
  rw [candidate_of_survives hs hv] at hc
  exact ⟨hv, congrArg Candidate.dw (Option.some.inj hc).symm⟩

/-- With a rational figure of merit, a surviving divider's candidate holds its merit. -/
theorem candidate_liftFom (hs : 0 < sync) (h : Exact.Survives sync D S0s T sh rising d) :
    candidate .exact (liftFom f) sync (.fin D) (.fin S0s) (.fin T) sh rising d =
      some ⟨d, Exact.deltaWord sync D T sh d, .fin (Exact.merit f sync D T sh d)⟩ := candidate_of_survives hs h

/-- The leg's divider has the least merit of the survivors, and is the lowest of equals (R143). -/
theorem leg_liftFom_least (hs : 0 < sync)
    (h : leg .exact (liftFom f) sync (.fin D) (.fin S0s) (.fin T) sh rising = some c) :
    c.j = .fin (Exact.merit f sync D T sh c.d) ∧ ∀ d, Exact.Survives sync D S0s T sh rising d →
      Exact.merit f sync D T sh c.d ≤ Exact.merit f sync D T sh d ∧
      (Exact.merit f sync D T sh d = Exact.merit f sync D T sh c.d → c.d ≤ d) := by
  have hfin : ∀ d ∈ dividers, ∀ e, candidate .exact (liftFom f) sync (.fin D) (.fin S0s) (.fin T) sh rising d = some e →
      ∃ J, e.j = .fin J := fun d hd e he => by
    rw [candidate_liftFom hs (survives_of_candidate hs hd he)] at he
    exact ⟨_, congrArg Candidate.j (Option.some.inj he).symm⟩
  obtain ⟨⟨-, hc⟩, hbest⟩ := leg_selected hfin h
  rw [candidate_liftFom hs (leg_survives hs h).1] at hc
  have hj : c.j = .fin (Exact.merit f sync D T sh c.d) := congrArg Candidate.j (Option.some.inj hc).symm
  refine ⟨hj, fun d hv => ?_⟩
  simpa [hj] using hbest d hv.mem_dividers _ (candidate_liftFom hs hv)

end

/-- Settles O48: each turn of the loop gives a candidate exactly where the divider survives (`leg_eq_none_iff`), and
what is found is one of the candidates (`leg_valid`). -/
theorem legFailsExactlyWithoutSurvivor : Obligations.LegFailsExactlyWithoutSurvivor := by
  intro fom sync D S0s T sh rising hs
  refine ⟨leg_eq_none_iff hs, fun c h => ?_⟩
  obtain ⟨h1, h2, hdw, hdvd, -⟩ := leg_valid h
  exact ⟨h1, h2, hdw, hdvd⟩

/-- Settles O53: the falling leg's candidates do not evaluate the guard, and no other rule rejects a divider. -/
theorem fallingLegHasNoOverflowGuard : Obligations.FallingLegHasNoOverflowGuard := by
  refine ⟨fun n fom sync D S0s S0s' T sh => bestOf_congr fun d _ => candidate_falling S0s S0s',
    fun fom sync D S0s T sh d hs h1 h2 => ?_⟩
  rw [ne_eq, candidate_eq_none_iff hs (mem_dividers.mpr ⟨h1, h2⟩), not_not]
  simp [Exact.Survives, h1, h2]

/-- Two figures of merit that order the dividers alike pick the same divider and delta word. -/
theorem leg_pick_congr {f g : Rat → Rat → Rat → Int → Int → Rat} {sync D S0s T : Rat} {sh : Nat} {rising : Bool}
    (hs : 0 < sync)
    (horder : ∀ d e, Exact.merit g sync D T sh d ≤ Exact.merit g sync D T sh e ↔
      Exact.merit f sync D T sh d ≤ Exact.merit f sync D T sh e) :
    (leg .exact (liftFom g) sync (.fin D) (.fin S0s) (.fin T) sh rising).map (fun c => (c.d, c.dw)) =
      (leg .exact (liftFom f) sync (.fin D) (.fin S0s) (.fin T) sh rising).map (fun c => (c.d, c.dw)) := by
  cases hf : leg .exact (liftFom f) sync (.fin D) (.fin S0s) (.fin T) sh rising with
  | none => rw [(leg_eq_none_iff (fom := liftFom g) hs).mpr ((leg_eq_none_iff hs).mp hf)]
  | some c =>
    cases hg : leg .exact (liftFom g) sync (.fin D) (.fin S0s) (.fin T) sh rising with
    | none => simp [(leg_eq_none_iff (fom := liftFom f) hs).mpr ((leg_eq_none_iff hs).mp hg)] at hf
    | some c' =>
      obtain ⟨hv, hdw⟩ := leg_survives hs hf
      obtain ⟨hv', hdw'⟩ := leg_survives hs hg
      obtain ⟨hle, hlow⟩ := (leg_liftFom_least hs hf).2 c'.d hv'
      obtain ⟨hle', hlow'⟩ := (leg_liftFom_least hs hg).2 c.d hv
      have hd : c'.d = c.d := le_antisymm (hlow' (le_antisymm ((horder _ _).mpr hle) hle'))
        (hlow (le_antisymm ((horder _ _).mp hle') hle))
      simp [hdw, hdw', hd]

/-- Settles O57: a positive factor keeps the order of the merits, which decides the pick (`leg_pick_congr`). -/
theorem scalingTheMeritChangesNothing : Obligations.ScalingTheMeritChangesNothing :=
  fun _ _ _ _ _ _ _ _ hk hs => leg_pick_congr hs fun _ _ => mul_le_mul_iff_right₀ hk

end Sys2Proof.Machine

/-! ### The figure of merit under exact arithmetic (R141, R142) -/

namespace Sys2Proof.Machine

/-- The closed form of R142 on rationals, for `m` steps taken. -/
def exactClosed (D T tau : Rat) (dw m : Int) : Rat :=
  let sigma := D / T
  let l := T - m * tau
  let e := sigma * tau - dw
  e ^ 2 * tau * m * (m - 1) * (2 * m - 1) / 6 + e * sigma * tau ^ 2 * m * (m - 1) / 2 +
    m * sigma ^ 2 * tau ^ 3 / 3 + m ^ 2 * e ^ 2 * l + m * e * sigma * l ^ 2 + sigma ^ 2 * l ^ 3 / 3

/-- The block's figure of merit on rationals, for each form of the parameter `FOM` (R8, R142, D7). -/
def exactFom : FomForm → Rat → Rat → Rat → Int → Int → Rat
  | .integral, D, T, tau, dw, nFull => exactClosed D T tau dw (min nFull ⌊T / tau⌋)
  | .signedTail, D, T, tau, dw, nFull => exactClosed D T tau dw nFull
  | .given k, D, T, tau, dw, nFull => Config.fomExact k D T tau dw nFull

/-- Under exact arithmetic the block computes `exactFom`. -/
theorem fomOf_exact (form : FomForm) (D : Rat) {T tau : Rat} (hT : 0 < T) (htau : 0 < tau) (dw nFull : Int) :
    fomOf form .exact (.fin D) (.fin T) (.fin tau) dw nFull = .fin (exactFom form D T tau dw nFull) := by
  cases form with
  | integral => rw [fomOf_integral_exact D T htau.ne', fomClosed_exact D hT.ne']; rfl
  | signedTail => rw [fomOf_signedTail, fomClosed_exact D hT.ne']; rfl
  | given k => exact fomOf_given_exact k D T tau dw nFull

/-- So the block's own leg is the leg of a rational figure of merit. -/
theorem leg_fomOf_exact (form : FomForm) {sync : Rat} (hs : 0 < sync) (D S0s T : Rat) (sh : Nat) (rising : Bool) :
    leg .exact (fomOf form .exact) sync (.fin D) (.fin S0s) (.fin T) sh rising =
      leg .exact (liftFom (exactFom form)) sync (.fin D) (.fin S0s) (.fin T) sh rising :=
  leg_exact_congr hs (fun _ dw nFull hT htau => fomOf_exact form D hT htau dw nFull) S0s sh rising

/-- Settles O47: the selection keeps the first of the least candidates in ascending order (`leg_liftFom_least`); the
block's own forms are rational where a divider survives (`exactFom`). -/
theorem legPicksLeastMeritLowestDivider : Obligations.LegPicksLeastMeritLowestDivider := by
  constructor
  · intro fom sync D S0s T sh rising c hs h
    obtain ⟨hv, hdw⟩ := leg_survives hs h
    exact ⟨hv, hdw, leg_liftFom_least hs h⟩
  · intro form
    exact ⟨exactFom form, fun D T tau dw nFull hT htau => fomOf_exact form D hT htau dw nFull,
      fun sync D S0s T sh rising hs => leg_fomOf_exact form hs D S0s T sh rising⟩

/-! #### A staircase that takes no step -/

theorem exactClosed_zero (D T tau : Rat) (dw : Int) : exactClosed D T tau dw 0 = (D / T) ^ 2 * T ^ 3 / 3 := by
  simp [exactClosed]

theorem exactFom_integral_of_no_step {D T tau : Rat} {dw nFull : Int} (h : min nFull ⌊T / tau⌋ = 0) :
    exactFom .integral D T tau dw nFull = (D / T) ^ 2 * T ^ 3 / 3 := by
  rw [exactFom, h, exactClosed_zero]

/-- A time step longer than the duration leaves no room for a step. -/
theorem min_floor_eq_zero_of_lt {T tau : Rat} (hT : 0 < T) (h : T < tau) {nFull : Int} (hn : 0 ≤ nFull) :
    min nFull ⌊T / tau⌋ = 0 := by
  have htau := hT.trans h
  rw [Int.floor_eq_zero_iff.mpr ⟨(div_pos hT htau).le, (div_lt_one htau).mpr h⟩, min_eq_right hn]

/-! #### The closed form is a sum of integrals -/

theorem integral_sq_affine (a s L : ℝ) :
    ∫ x in (0 : ℝ)..L, (a + s * x) ^ 2 = a ^ 2 * L + a * s * L ^ 2 + s ^ 2 * L ^ 3 / 3 := by
  have hderiv (x : ℝ) : HasDerivAt (fun x => a ^ 2 * x + a * s * x ^ 2 + s ^ 2 * x ^ 3 / 3) ((a + s * x) ^ 2) x := by
    have h1 := (hasDerivAt_id' x).const_mul (a ^ 2)
    have h2 := (hasDerivAt_pow 2 x).const_mul (a * s)
    have h3 := ((hasDerivAt_pow 3 x).const_mul (s ^ 2)).div_const 3
    refine ((h1.add h2).add h3).congr_deriv ?_
    push_cast
    ring
  rw [intervalIntegral.integral_eq_sub_of_hasDerivAt (fun x _ => hderiv x)
    (Continuous.intervalIntegrable (by fun_prop) _ _)]
  ring

/-- The first `m` steps' integrals, summed (R142's first line). -/
theorem sum_step_integrals (e s tau : ℝ) (m : ℕ) :
    ∑ k ∈ Finset.range m, (∫ x in (0 : ℝ)..tau, (k * e + s * x) ^ 2) =
      e ^ 2 * tau * m * (m - 1) * (2 * m - 1) / 6 + e * s * tau ^ 2 * m * (m - 1) / 2 + m * s ^ 2 * tau ^ 3 / 3 := by
  induction m with
  | zero => simp
  | succ m ih =>
    rw [Finset.sum_range_succ, ih, integral_sq_affine]
    push_cast
    ring

/-- The closed form for `m` steps is the sum of their integrals and of the tail's, at either sign of its length. -/
theorem exactClosed_eq_unclippedSum (D T tau : Rat) (dw : Int) {m : Int} (hm : 0 ≤ m) :
    (exactClosed D T tau dw m : ℝ) = Exact.unclippedSum D T tau dw m := by
  obtain ⟨m, rfl⟩ := Int.eq_ofNat_of_zero_le hm
  rw [Exact.unclippedSum, Int.toNat_natCast, sum_step_integrals, integral_sq_affine, exactClosed]
  push_cast
  ring

/-! #### The integral of R141, step by step -/

/-- The integrand of R141. -/
noncomputable def sqDeviation (D T tau : Rat) (dw nFull : Int) (t : ℝ) : ℝ :=
  ((D / T : ℝ) * t - Exact.stair tau dw nFull t) ^ 2

theorem fomIntegral_eq (D T tau : Rat) (dw nFull : Int) :
    Exact.fomIntegral D T tau dw nFull = ∫ t in (0 : ℝ)..(T : ℝ), sqDeviation D T tau dw nFull t := rfl

section
variable {D T tau : Rat} {dw nFull : Int}

/-- Where `k` steps have been taken, the staircase holds `k·dw`. -/
theorem stair_of_steps {t : ℝ} {k : Int} (h : min ⌊t / (tau : ℝ)⌋ nFull = k) : Exact.stair tau dw nFull t = k * dw := by
  rw [Exact.stair, ← h, mul_comm]
  push_cast
  rfl

/-- Over a length on which `k` steps have been taken, the deviation is a straight line. -/
theorem integral_level {k : ℕ} {L : ℝ} (hL : 0 ≤ L)
    (h : ∀ t ∈ Set.Ioo (k * tau : ℝ) (k * tau + L), min ⌊t / (tau : ℝ)⌋ nFull = k) :
    IntervalIntegrable (sqDeviation D T tau dw nFull) MeasureTheory.volume (k * tau) (k * tau + L) ∧
      ∫ t in (k * tau : ℝ)..(k * tau + L), sqDeviation D T tau dw nFull t =
        ∫ x in (0 : ℝ)..L, (k * (D / T * tau - dw : ℝ) + (D / T : ℝ) * x) ^ 2 := by
  have hline : Set.EqOn (fun t => (k * (D / T * tau - dw : ℝ) + (D / T : ℝ) * (t - k * tau)) ^ 2)
      (sqDeviation D T tau dw nFull) (Set.uIoo (k * tau : ℝ) (k * tau + L)) := by
    intro t ht
    rw [Set.uIoo_of_le (by linarith)] at ht
    simp only [sqDeviation, stair_of_steps (h t ht)]
    push_cast
    ring
  refine ⟨(Continuous.intervalIntegrable (by fun_prop) _ _).congr_uIoo hline, ?_⟩
  rw [← intervalIntegral.integral_congr_uIoo hline,
    intervalIntegral.integral_comp_sub_right (fun x => (k * (D / T * tau - dw : ℝ) + (D / T : ℝ) * x) ^ 2)]
  simp

/-- On the `k`-th of the steps taken, `k` have been taken. -/
theorem steps_of_mem_step (htau : 0 < tau) {k : ℕ} (hk : (k : Int) < nFull) {t : ℝ}
    (ht : t ∈ Set.Ioo (k * tau : ℝ) (k * tau + tau)) : min ⌊t / (tau : ℝ)⌋ nFull = k := by
  have htau' : (0 : ℝ) < tau := by exact_mod_cast htau
  have hfloor : ⌊t / (tau : ℝ)⌋ = k := by
    rw [Int.floor_eq_iff, le_div_iff₀ htau', div_lt_iff₀ htau']
    exact ⟨by exact_mod_cast ht.1.le, by push_cast; linarith [ht.2]⟩
  rw [hfloor, min_eq_left hk.le]

/-- After the last of the steps taken by `T`, the staircase takes no further step until `T`. -/
theorem steps_of_mem_tail (htau : 0 < tau) {m : ℕ} (hm : min nFull ⌊T / tau⌋ = m) {t : ℝ}
    (ht : t ∈ Set.Ioo (m * tau : ℝ) T) : min ⌊t / (tau : ℝ)⌋ nFull = m := by
  have htau' : (0 : ℝ) < tau := by exact_mod_cast htau
  have hlow : (m : Int) ≤ ⌊t / (tau : ℝ)⌋ := by
    rw [Int.le_floor, le_div_iff₀ htau']
    exact_mod_cast ht.1.le
  have hhigh : ⌊t / (tau : ℝ)⌋ ≤ ⌊T / tau⌋ := by
    have hcast : ((T / tau : Rat) : ℝ) = T / tau := by push_cast; rfl
    rw [← Rat.floor_cast (α := ℝ), hcast]
    exact Int.floor_le_floor ((div_le_div_iff_of_pos_right htau').mpr ht.2.le)
  omega

/-- The integral of R141 is that of the steps taken by `T` and of the tail after them. -/
theorem fomIntegral_eq_unclippedSum (hT : 0 < T) (htau : 0 < tau) (hn : 0 ≤ nFull) :
    Exact.fomIntegral D T tau dw nFull = Exact.unclippedSum D T tau dw (min nFull ⌊T / tau⌋) := by
  have hfloor : 0 ≤ ⌊T / tau⌋ := Int.floor_nonneg.mpr (div_pos hT htau).le
  obtain ⟨m, hm⟩ := Int.eq_ofNat_of_zero_le (le_min hn hfloor)
  have hmT : (m * tau : ℝ) ≤ T := by
    have : ((m : Int) : Rat) ≤ T / tau := Int.le_floor.mp (by omega)
    rw [le_div_iff₀ htau] at this
    exact_mod_cast this
  have hstep {k : ℕ} (hk : k < m) := integral_level (D := D) (T := T) (dw := dw) (k := k) (L := (tau : ℝ))
    (by exact_mod_cast htau.le) fun t ht => steps_of_mem_step htau (nFull := nFull) (by omega) ht
  obtain ⟨htail, htail_eq⟩ := integral_level (D := D) (T := T) (dw := dw) (k := m) (L := (T - m * tau : ℝ))
    (by linarith) fun t ht => steps_of_mem_tail htau hm (by rwa [add_sub_cancel] at ht)
  rw [add_sub_cancel] at htail htail_eq
  have hsucc (k : ℕ) : ((k + 1 : ℕ) * tau : ℝ) = k * tau + tau := by push_cast; ring
  have hint : ∀ k < m, IntervalIntegrable (sqDeviation D T tau dw nFull) MeasureTheory.volume
      (k * tau : ℝ) ((k + 1 : ℕ) * tau : ℝ) := fun k hk => by rw [hsucc]; exact (hstep hk).1
  have hsum := intervalIntegral.sum_integral_adjacent_intervals (a := fun k : ℕ => (k * tau : ℝ)) hint
  have hall := IntervalIntegrable.trans_iterate (a := fun k : ℕ => (k * tau : ℝ)) hint
  rw [Nat.cast_zero, zero_mul] at hsum hall
  rw [fomIntegral_eq, hm, ← intervalIntegral.integral_add_adjacent_intervals hall htail, htail_eq, ← hsum,
    Exact.unclippedSum, Int.toNat_natCast]
  refine congrArg₂ _ (Finset.sum_congr rfl fun k hk => ?_) rfl
  rw [hsucc, (hstep (Finset.mem_range.mp hk)).2]

/-- The default figure of merit is the integral of R141. -/
theorem exactFom_integral_eq_fomIntegral (hT : 0 < T) (htau : 0 < tau) (hn : 0 ≤ nFull) :
    (exactFom .integral D T tau dw nFull : ℝ) = Exact.fomIntegral D T tau dw nFull := by
  rw [fomIntegral_eq_unclippedSum hT htau hn]
  exact exactClosed_eq_unclippedSum D T tau dw (le_min hn (Int.floor_nonneg.mpr (div_pos hT htau).le))

end

/-- Settles O54: the closed form for any number of steps is their sum with a tail (`exactClosed_eq_unclippedSum`), and
the integral of R141 is that sum for the steps taken by `T`, which are all where the steps end by `T`. -/
theorem closedFormIsTheIntegral : Obligations.ClosedFormIsTheIntegral := by
  intro D T tau dw nFull hT htau hn
  refine ⟨⟨_, fomOf_exact .integral D hT htau dw nFull, exactFom_integral_eq_fomIntegral hT htau hn⟩,
    ⟨_, fomOf_exact .signedTail D hT htau dw nFull, exactClosed_eq_unclippedSum D T tau dw hn, fun hend => ?_⟩⟩
  have hmin : min nFull ⌊T / tau⌋ = nFull := min_eq_left (Int.le_floor.mpr ((le_div_iff₀ htau).mpr hend))
  rw [← exactFom_integral_eq_fomIntegral hT htau hn, exactFom, exactFom, hmin]

/-! #### The figure of merit is positive -/

theorem integral_sq_affine_nonneg (a s : ℝ) {L : ℝ} (hL : 0 ≤ L) : 0 ≤ ∫ x in (0 : ℝ)..L, (a + s * x) ^ 2 :=
  intervalIntegral.integral_nonneg hL fun _ _ => sq_nonneg _

/-- Before the first step the deviation is the ramp itself. -/
theorem integral_sq_ramp_pos (e : ℝ) {s L : ℝ} (hs : s ≠ 0) (hL : 0 < L) :
    0 < ∫ x in (0 : ℝ)..L, (((0 : ℕ) : ℝ) * e + s * x) ^ 2 := by
  rw [Nat.cast_zero, zero_mul, integral_sq_affine]
  simp only [zero_pow two_ne_zero, zero_mul, zero_add]
  positivity

/-- The first step, or the tail where no step is taken, makes the sum positive for a span other than 0. -/
theorem unclippedSum_pos {D T tau : Rat} {dw m : Int} (hT : 0 < T) (htau : 0 < tau) (hD : D ≠ 0) (hm : 0 ≤ m)
    (hmT : m * tau ≤ T) : 0 < Exact.unclippedSum D T tau dw m := by
  have hT' : (0 : ℝ) < T := by exact_mod_cast hT
  have htau' : (0 : ℝ) < tau := by exact_mod_cast htau
  have hD' : (D : ℝ) ≠ 0 := by exact_mod_cast hD
  have hlen : (0 : ℝ) ≤ T - m * tau := sub_nonneg.mpr (by exact_mod_cast hmT)
  obtain ⟨m, rfl⟩ := Int.eq_ofNat_of_zero_le hm
  rw [Exact.unclippedSum, Int.toNat_natCast]
  cases m with
  | zero => simpa using integral_sq_ramp_pos (D / T * tau - dw) (div_ne_zero hD' hT'.ne') hT'
  | succ m =>
    refine add_pos_of_pos_of_nonneg ?_ (integral_sq_affine_nonneg _ _ hlen)
    exact Finset.sum_pos' (fun k _ => integral_sq_affine_nonneg _ _ htau'.le)
      ⟨0, by simp, integral_sq_ramp_pos _ (div_ne_zero hD' hT'.ne') htau'⟩

/-- Settles O55: the integral of a square is not negative, and for a span other than 0 the deviation before the first
step makes it positive (`unclippedSum_pos`). -/
theorem meritIsPositiveForEveryRamp : Obligations.MeritIsPositiveForEveryRamp := by
  intro D T tau dw nFull hT htau hn
  have hJ := exactFom_integral_eq_fomIntegral (D := D) (dw := dw) hT htau hn
  have hT' : (0 : ℝ) ≤ T := by exact_mod_cast hT.le
  refine ⟨_, fomOf_exact .integral D hT htau dw nFull, ?_, fun h0 => ?_⟩
  · have hnonneg : 0 ≤ Exact.fomIntegral D T tau dw nFull :=
      intervalIntegral.integral_nonneg hT' fun _ _ => sq_nonneg _
    rw [← hJ] at hnonneg
    exact_mod_cast hnonneg
  · by_contra hD
    have hm : 0 ≤ min nFull ⌊T / tau⌋ := le_min hn (Int.floor_nonneg.mpr (div_pos hT htau).le)
    have hmT : (min nFull ⌊T / tau⌋ : Int) * tau ≤ T :=
      (le_div_iff₀ htau).mp (Int.le_floor.mp (min_le_right _ _))
    have hpos := unclippedSum_pos (dw := dw) hT htau hD hm hmT
    rw [← fomIntegral_eq_unclippedSum hT htau hn, ← hJ, h0] at hpos
    simp at hpos

end Sys2Proof.Machine

/-! ### Ramps at the edges of the search (R152 to R156, R158) -/

namespace Sys2Proof.Machine

section
variable {sync D S0s T : Rat} {sh d : Nat} {rising : Bool}

/-! #### What a surviving divider says of its span -/

theorem deltaWord_nonpos (h : D ≤ 0) (hsteps : 0 < Exact.steps sync T d) : Exact.deltaWord sync D T sh d ≤ 0 := by
  have hsteps' : (0 : Rat) < Exact.steps sync T d := by exact_mod_cast hsteps
  have hceil : (⌈D / (Exact.steps sync T d : Rat)⌉ : Rat) ≤ 0 := by
    exact_mod_cast Int.ceil_le.mpr ((div_nonpos_of_nonpos_of_nonneg h hsteps'.le).trans_eq Int.cast_zero.symm)
  have hfloor : ⌊(⌈D / (Exact.steps sync T d : Rat)⌉ : Rat) / 2 ^ sh⌋ ≤ 0 :=
    Int.floor_nonpos (div_nonpos_of_nonpos_of_nonneg hceil (by positivity))
  exact mul_nonpos_of_nonneg_of_nonpos (by positivity) hfloor

/-- A divider survives only with a positive span (R152). -/
theorem Exact.Survives.span_pos (h : Exact.Survives sync D S0s T sh rising d) : 0 < D := by
  obtain ⟨-, -, hsteps, hdw, -⟩ := h
  exact not_le.mp fun hD => hdw.not_ge (deltaWord_nonpos hD hsteps)

theorem le_mul_ceil_div {w : Int} (hw : 0 < w) : D ≤ w * ⌈D / (w : Rat)⌉ :=
  (div_le_iff₀' (by exact_mod_cast hw)).mp (Int.le_ceil _)

/-- The guard of a surviving divider keeps the high end below the top (R158). -/
theorem Exact.Survives.high_end_lt (h : Exact.Survives sync D S0s T sh true d) : D + S0s < 2 ^ 32 := by
  obtain ⟨-, -, -, hdw, hguard⟩ := h
  have hreach := le_mul_ceil_div (D := D) hdw
  linarith [hguard rfl]

/-- From an integer low end the guard compares integers, so the high end is at most `2^32 − 1` (R158). -/
theorem Exact.Survives.high_end_le {z : Int} (h : Exact.Survives sync D z T sh true d) : D + z ≤ 2 ^ 32 - 1 := by
  obtain ⟨-, -, -, hdw, hguard⟩ := h
  have hreach := le_mul_ceil_div (D := D) hdw
  have hint : Exact.deltaWord sync D T sh d * ⌈D / (Exact.deltaWord sync D T sh d : Rat)⌉ + z < (2 ^ 32 : Int) := by
    exact_mod_cast hguard rfl
  have hint' : ((Exact.deltaWord sync D T sh d * ⌈D / (Exact.deltaWord sync D T sh d : Rat)⌉ + z : Int) : Rat) ≤
      ((2 ^ 32 - 1 : Int) : Rat) := by exact_mod_cast Int.le_sub_one_of_lt hint
  push_cast at hint'
  linarith

/-! #### One step over the whole duration (R154, R155) -/

theorem steps_eq_one (hs : 0 < sync) (hT : 0 < T) (h : T * sync ≤ d) : Exact.steps sync T d = 1 := by
  have hpos : 0 < T * sync := mul_pos hT hs
  have hd : (0 : Rat) < d := hpos.trans_le h
  rw [Exact.steps, Int.ceil_eq_iff, Int.cast_one, sub_self, div_le_one hd]
  exact ⟨div_pos hpos hd, h⟩

theorem deltaWord_of_one_step (h : Exact.steps sync T d = 1) :
    Exact.deltaWord sync D T sh d = 2 ^ sh * ⌊(⌈D⌉ : Rat) / 2 ^ sh⌋ := by
  rw [Exact.deltaWord, h, Int.cast_one, div_one]

theorem deltaWord_freq_of_one_step (h : Exact.steps sync T d = 1) : Exact.deltaWord sync D T 0 d = ⌈D⌉ := by
  simp [deltaWord_of_one_step h]

/-- A delta word that is not below a positive span takes one step to reach it. -/
theorem ceil_div_eq_one {w : Int} (hD : 0 < D) (h : D ≤ w) : ⌈D / (w : Rat)⌉ = 1 := by
  have hw : (0 : Rat) < w := hD.trans_le h
  rw [Int.ceil_eq_iff, Int.cast_one, sub_self, div_le_one hw]
  exact ⟨div_pos hD hw, h⟩

/-- A FREQ divider with one step survives by its guard alone. -/
theorem survives_freq_of_one_step (h : Exact.steps sync T d = 1) (h1 : 1 ≤ d) (h2 : d ≤ 255) (hD : 0 < D) :
    Exact.Survives sync D S0s T 0 rising d ↔ (rising = true → (⌈D⌉ : Rat) + S0s < 2 ^ 32) := by
  simp [Exact.Survives, h, deltaWord_freq_of_one_step h, ceil_div_eq_one hD (Int.le_ceil D), h1, h2,
    Int.ceil_pos.mpr hD]

/-- Where the time step is longer than the duration, every surviving divider has the merit of no step. -/
theorem merit_of_long_step (hs : 0 < sync) (h : Exact.Survives sync D S0s T sh rising d) (hlong : T < d / sync) :
    Exact.merit (exactFom .integral) sync D T sh d = (D / T) ^ 2 * T ^ 3 / 3 := by
  have hdw : (0 : Rat) ≤ Exact.deltaWord sync D T sh d := by exact_mod_cast h.2.2.2.1.le
  exact exactFom_integral_of_no_step
    (min_floor_eq_zero_of_lt (h.duration_pos hs) hlong (Int.floor_nonneg.mpr (div_nonneg h.span_pos.le hdw)))

end

/-- Settles O56: `T·SYNC_CLK ≤ d` makes one step; a time step above `T` leaves the merit of no step, so such survivors
tie and the lowest is picked; and the FREQ divider 255 survives by its guard alone. -/
theorem shortFrequencyRampsAreFeasible : Obligations.ShortFrequencyRampsAreFeasible := by
  refine ⟨fun sync D T sh d hs hT h => ?_, fun sync D S0s T sh rising c d hs h hc hd hv => ?_,
    fun fom sync D S0s T hs hT h hD => ?_⟩
  · have hsteps := steps_eq_one hs hT h
    refine ⟨hsteps, deltaWord_of_one_step hsteps, fun hlong dw nFull hn => ?_⟩
    rw [fomOf_exact .integral D hT (hT.trans hlong), exactFom_integral_of_no_step (min_floor_eq_zero_of_lt hT hlong hn)]
  · rw [leg_fomOf_exact .integral hs] at h
    refine ((leg_liftFom_least hs h).2 d hv).2 ?_
    rw [merit_of_long_step hs hv hd, merit_of_long_step hs (leg_survives hs h).1 hc]
  · have hsteps : Exact.steps sync T 255 = 1 := steps_eq_one hs hT ((le_div_iff₀ hs).mp (by exact_mod_cast h))
    have hsurvives : Exact.Survives sync D S0s T 0 true 255 ↔ (⌈D⌉ : Rat) + S0s < 2 ^ 32 := by
      simpa using survives_freq_of_one_step (rising := true) hsteps (by norm_num) le_rfl hD
    refine ⟨deltaWord_freq_of_one_step hsteps, ceil_div_eq_one hD (Int.le_ceil D), hsurvives, fun hguard hnone => ?_⟩
    exact (leg_eq_none_iff hs).mp hnone 255 (hsurvives.mpr hguard)

/-- A staircase that has not taken its last full step is below the span. -/
theorem stair_lt_span {D T tau : Rat} {dw nFull : Int} (htau : 0 < tau) (hdw : 0 < dw)
    (hn : nFull = ⌊D / (dw : Rat)⌋) (hend : T < nFull * tau) {t : ℝ} (ht : t < T) : Exact.stair tau dw nFull t < D := by
  have htau' : (0 : ℝ) < tau := by exact_mod_cast htau
  have hdw' : (0 : Rat) < dw := by exact_mod_cast hdw
  have hend' : (T : ℝ) < nFull * tau := by exact_mod_cast hend
  have hbefore : ⌊t / (tau : ℝ)⌋ < nFull := Int.floor_lt.mpr ((div_lt_iff₀ htau').mpr (ht.trans hend'))
  have hreach : (nFull * dw : Rat) ≤ D := by
    rw [hn]
    exact (le_div_iff₀ hdw').mp (Int.floor_le _)
  rw [stair_of_steps (min_eq_left hbefore.le)]
  have hstep : ⌊t / (tau : ℝ)⌋ * dw < nFull * dw := (mul_lt_mul_iff_left₀ hdw).mpr hbefore
  calc (⌊t / (tau : ℝ)⌋ * dw : ℝ) < (nFull * dw : ℝ) := by exact_mod_cast hstep
    _ ≤ D := by exact_mod_cast hreach

/-- Settles O59: a delta word above the span takes no full step; `ceil(D)` is above a span that is not an integer; the
clipped form reads `nFull` only through its minimum with `floor(T/tau)`, which steps past `T` leave the same. -/
theorem staircasesThatDoNotFitTheSpan : Obligations.StaircasesThatDoNotFitTheSpan := by
  refine ⟨fun D T tau dw hT htau hD h => ?_, fun sync D S0s T d hs hT h h2 hD hint => ?_,
    fun D T tau dw nFull hT htau hdw hn hend => ?_, ?_⟩
  · have hdw : (0 : Rat) < dw := hD.trans h
    refine ⟨Int.floor_eq_zero_iff.mpr ⟨(div_pos hD hdw).le, (div_lt_one hdw).mpr h⟩, ceil_div_eq_one hD h.le, ?_⟩
    have hmin : min 0 ⌊T / tau⌋ = 0 := min_eq_left (Int.floor_nonneg.mpr (div_pos hT htau).le)
    rw [fomOf_exact .integral D hT htau, exactFom_integral_of_no_step hmin]
  · have hsteps := steps_eq_one hs hT h
    have h1 : 1 ≤ d := by exact_mod_cast (mul_pos hT hs).trans_le h
    rw [deltaWord_freq_of_one_step hsteps, survives_freq_of_one_step hsteps h1 h2 hD,
      survives_freq_of_one_step hsteps h1 h2 hD]
    exact ⟨lt_of_le_of_ne (Int.le_ceil D) (hint _), by simp, by simp⟩
  · have hclip : ⌊T / tau⌋ ≤ nFull := (Int.floor_lt.mpr ((div_lt_iff₀ htau).mpr hend)).le
    refine ⟨?_, fun t ht => stair_lt_span htau hdw hn hend ht⟩
    rw [fomOf_exact .integral D hT htau, fomOf_exact .integral D hT htau, exactFom, exactFom, min_eq_right hclip,
      min_self]
  · norm_num [Exact.steps, Exact.deltaWord]

end Sys2Proof.Machine

/-! ### The response of RAMP_OPT (R130, R145 to R150) -/

namespace Sys2Proof.Machine

/-- Settles O15: the command is the one decoded, and the type check faults before any computation. -/
theorem rampTypeNoneAnswersBadRampType : Obligations.RampTypeNoneAnswersBadRampType := by
  intro s s0 e0 tr tf rest hr hcmd
  have hd : decode s.cmd = .ok (.rampOpt .none s0 e0 tr tf) rest := by
    rw [hcmd]
    exact decodeOfEncodeIsTheCommand _ rest rfl
  rw [step_of_decode hr hd]
  rfl

/-- RAMP_OPT adds the optimizer's response and nothing else (R149). -/
theorem exec_rampOpt_of_optimize {s : State} {t : RampType} {s0 e0 tr tf : Rat} {r : Response} (ht : t ≠ .none)
    (h : optimize s.par.numeric (fomOf s.par.fom s.par.numeric) s.cfg t s0 e0 tr tf = r) :
    exec (.rampOpt t s0 e0 tr tf) s = .next { s with resp := s.resp ++ [r] } := by
  rw [exec_rampOpt ht, h]
  rfl

/-- Settles O45: the optimizer is a function of the operands, the parameters and `cfg`. -/
theorem rampOptOnlyResponds : Obligations.RampOptOnlyResponds := by
  intro s s' t s0 e0 tr tf ht hpar hcfg
  exact ⟨_, exec_rampOpt_of_optimize ht rfl, exec_rampOpt_of_optimize ht (by rw [hpar, hcfg])⟩

/-! #### The response from the two legs -/

@[simp] theorem rampResponse_none (fall : Option Candidate) :
    rampResponse none fall = ⟨.rampRiseNone, .ramp 0 0 0 0⟩ := rfl
@[simp] theorem rampResponse_some_none (r : Candidate) :
    rampResponse (some r) none = ⟨.rampFallNone, .ramp 0 0 0 0⟩ := rfl
@[simp] theorem rampResponse_some_some (r f : Candidate) : rampResponse (some r) (some f) = ⟨.ok, rampData r f⟩ := rfl

/-- An `OK` response has both legs (R146, R147). -/
theorem rampResponse_ok {rise fall : Option Candidate} {d : Data} (h : rampResponse rise fall = ⟨.ok, d⟩) :
    ∃ r f, rise = some r ∧ fall = some f ∧ rampData r f = d := by
  cases rise with
  | none => simp at h
  | some r =>
    cases fall with
    | none => simp at h
    | some f => exact ⟨r, f, rfl, rfl, by simpa using h⟩

theorem toNat_divider {d : Nat} (h : d ≤ 255) : (BitVec.ofNat 8 d).toNat = d :=
  Nat.mod_eq_of_lt (Nat.lt_succ_of_le h)

theorem sat32_toNat_of_pos {z : Int} (h : 0 < z) : ((sat32 z).toNat : Int) = min z (2 ^ 32 - 1) := by
  rw [sat32_toNat, max_eq_left h.le]

/-- Where the scaled ends, the span and the durations are finite, the legs run on them (R132, R133). -/
theorem optimize_of_ends {n : Numeric} {cfg : ClockConfig} {t : RampType} {s0 e0 tr tf S0s D TR TF : Rat}
    {E0s : Quantity} (fom : Fom) (hS : scaledEnd n cfg.sysClk t s0 = .fin S0s) (hE : scaledEnd n cfg.sysClk t e0 = E0s)
    (hD : sub n E0s (.fin S0s) = .fin D) (hTR : rnd n tr = .fin TR) (hTF : rnd n tf = .fin TF) :
    optimize n fom cfg t s0 e0 tr tf =
      rampResponse (leg n fom cfg.syncClk (.fin D) (.fin S0s) (.fin TR) (rampShift t) true)
        (leg n fom cfg.syncClk (.fin D) (.fin S0s) (.fin TF) (rampShift t) false) := by
  simp only [optimize, hS, hE, hD, hTR, hTF]

theorem scaledEnd_rounded {sysClk k x x' v : Rat} {t : RampType} (hk : Rounded.scale sysClk t = some k)
    (hx : Rounded.value x = some x') (hv : Rounded.value (x' * k) = some v) :
    scaledEnd .binary64 sysClk t x = .fin v := by
  rw [scaledEnd, rampScale_rounded hk, rnd_rounded hx, mul_rounded hv]

/-- Under binary64 the legs run on the ends of `Rounded.ends` (R161). -/
theorem optimize_rounded {cfg : ClockConfig} {t : RampType} {s0 e0 tr tf S0s D TR TF : Rat} (fom : Fom)
    (hends : Rounded.ends cfg.sysClk t s0 e0 = some (S0s, D)) (hTR : Rounded.value tr = some TR)
    (hTF : Rounded.value tf = some TF) :
    optimize .binary64 fom cfg t s0 e0 tr tf =
      rampResponse (leg .binary64 fom cfg.syncClk (.fin D) (.fin S0s) (.fin TR) (rampShift t) true)
        (leg .binary64 fom cfg.syncClk (.fin D) (.fin S0s) (.fin TF) (rampShift t) false) := by
  simp only [Rounded.ends, bind, Option.bind_eq_some_iff, Option.some.injEq, Prod.mk.injEq] at hends
  obtain ⟨k, hk, x, hx, y, hy, a, ha, b, hb, d, hd, rfl, rfl⟩ := hends
  exact optimize_of_ends fom (scaledEnd_rounded hk hx ha) (scaledEnd_rounded hk hy hb) (sub_rounded hd)
    (rnd_rounded hTR) (rnd_rounded hTF)

/-- Settles O46: the legs run on the scaled ends of the block's arithmetic (`optimize_exact`, `optimize_rounded`), and a
candidate's divider and delta word are in the range that their response fields hold (`leg_valid`). -/
theorem rampOptAnswersFromItsLegs : Obligations.RampOptAnswersFromItsLegs := by
  intro s t s0 e0 tr tf S0s D TR TF ht hc hends n rise fall hn hrise hfall
  have hopt : optimize s.par.numeric (fomOf s.par.fom s.par.numeric) s.cfg t s0 e0 tr tf = rampResponse rise fall := by
    rw [hrise, hfall, hn]
    obtain ⟨hnum, rfl, rfl, rfl, rfl⟩ | ⟨hnum, hends, hTR, hTF⟩ := hends
    · rw [hnum, optimize_exact _ hc ht]
    · rw [hnum, optimize_rounded _ hends hTR hTF]
  have hexec := exec_rampOpt_of_optimize ht hopt
  refine ⟨fun h => ?_, fun hr h => ?_, fun r f hr hf => ?_⟩
  · rw [hexec, h, rampResponse_none]
  · obtain ⟨r, rfl⟩ := Option.ne_none_iff_exists'.mp hr
    rw [hexec, h, rampResponse_some_none]
  · obtain ⟨-, hrd, hrdw, -⟩ := leg_valid (hrise.symm.trans hr)
    obtain ⟨-, hfd, hfdw, -⟩ := leg_valid (hfall.symm.trans hf)
    rw [hexec, hr, hf, rampResponse_some_some]
    exact ⟨_, _, _, _, rfl, toNat_divider hrd, sat32_toNat_of_pos hrdw, toNat_divider hfd, sat32_toNat_of_pos hfdw⟩

/-! #### RAMP_OPT under exact arithmetic -/

/-- A leg of RAMP_OPT on rationals: the block's figure of merit on the scaled span and low end. -/
def State.exactLeg (s : State) (t : RampType) (s0 e0 T : Rat) (rising : Bool) : Option Candidate :=
  leg .exact (fomOf s.par.fom .exact) s.cfg.syncClk (.fin ((e0 - s0) * Exact.scale s.cfg.sysClk t))
    (.fin (s0 * Exact.scale s.cfg.sysClk t)) (.fin T) (rampShift t) rising

section
variable {s : State} {t : RampType} {s0 e0 tr tf : Rat}

theorem exec_rampOpt_exact (ht : t ≠ .none) (hn : s.par.numeric = .exact) (hc : ClockConfig.Good .exact s.cfg) :
    exec (.rampOpt t s0 e0 tr tf) s = .next { s with
      resp := s.resp ++ [rampResponse (s.exactLeg t s0 e0 tr true) (s.exactLeg t s0 e0 tf false)] } := by
  obtain ⟨-, -, hsys, -⟩ := hc
  refine exec_rampOpt_of_optimize ht ?_
  rw [hn, optimize_exact _ hsys ht, State.exactLeg, State.exactLeg, sub_mul]

theorem exactLeg_eq_none {T : Rat} {rising : Bool} (hc : ClockConfig.Good .exact s.cfg)
    (h : ∀ d, ¬ Exact.Survives s.cfg.syncClk ((e0 - s0) * Exact.scale s.cfg.sysClk t) (s0 * Exact.scale s.cfg.sysClk t)
      T (rampShift t) rising d) : s.exactLeg t s0 e0 T rising = none := by
  obtain ⟨-, -, -, hsync, -⟩ := hc
  exact (leg_eq_none_iff hsync).mpr h

/-- With no rising divider the answer is `RAMP_RISE_NONE` (R146). -/
theorem exec_rampOpt_riseNone (ht : t ≠ .none) (hn : s.par.numeric = .exact) (hc : ClockConfig.Good .exact s.cfg)
    (h : ∀ d, ¬ Exact.Survives s.cfg.syncClk ((e0 - s0) * Exact.scale s.cfg.sysClk t) (s0 * Exact.scale s.cfg.sysClk t)
      tr (rampShift t) true d) :
    exec (.rampOpt t s0 e0 tr tf) s = .next { s with resp := s.resp ++ [⟨.rampRiseNone, .ramp 0 0 0 0⟩] } := by
  rw [exec_rampOpt_exact ht hn hc, exactLeg_eq_none hc h, rampResponse_none]

end

/-- Settles O50: no divider survives without a positive span. -/
theorem rampThatDoesNotRiseFails : Obligations.RampThatDoesNotRiseFails := by
  intro s t s0 e0 tr tf ht hn hc hle
  obtain ⟨-, -, hsys, -⟩ := id hc
  have hscale := scale_pos hsys ht
  refine exec_rampOpt_riseNone ht hn hc fun d h => h.span_pos.not_ge ?_
  exact mul_nonpos_of_nonpos_of_nonneg (sub_nonpos.mpr hle) hscale.le

/-- Settles O51: no divider survives without a positive duration, on either leg. -/
theorem nonPositiveDurationsFail : Obligations.NonPositiveDurationsFail := by
  intro s t s0 e0 tr tf ht hn hc
  obtain ⟨-, -, -, hsync, -⟩ := id hc
  refine ⟨fun hTR => exec_rampOpt_riseNone ht hn hc fun d h => (h.duration_pos hsync).not_ge hTR, fun hTF d hv => ?_⟩
  have hrise : s.exactLeg t s0 e0 tr true ≠ none := fun hnone => (leg_eq_none_iff hsync).mp hnone d hv
  have hfall : s.exactLeg t s0 e0 tf false = none := exactLeg_eq_none hc fun d h => (h.duration_pos hsync).not_ge hTF
  obtain ⟨r, hr⟩ := Option.ne_none_iff_exists'.mp hrise
  rw [exec_rampOpt_exact ht hn hc, hr, hfall, rampResponse_some_none]

/-- Settles O52: the guard of a surviving rising divider is not below the high end, and from an integer low end it is an
integer. -/
theorem rampToTheTopIsInfeasible : Obligations.RampToTheTopIsInfeasible := by
  intro s t s0 e0 tr tf ht hn hc htop
  have hend : (e0 - s0) * Exact.scale s.cfg.sysClk t + s0 * Exact.scale s.cfg.sysClk t =
      e0 * Exact.scale s.cfg.sysClk t := by ring
  refine exec_rampOpt_riseNone ht hn hc fun d h => ?_
  obtain htop | ⟨⟨z, hz⟩, htop⟩ := htop
  · exact absurd (hend ▸ h.high_end_lt) (not_lt.mpr htop)
  · rw [hz] at h hend
    exact absurd (hend ▸ h.high_end_le) (not_le.mpr htop)

/-- Settles O49: an `OK` response has both legs; each is a survivor, whose fields hold its divider and its saturated
delta word, and the rising survivor passes the guard. -/
theorem okRampResultsAreValid : Obligations.OkRampResultsAreValid := by
  intro s t ty s0 e0 tr tf rd fd rdw fdw hn hc hexec hresp
  obtain ⟨-, -, -, hsync, -⟩ := id hc
  have hty : ty ≠ .none := by
    rintro rfl
    cases hexec
  rw [exec_rampOpt_exact hty hn hc] at hexec
  obtain rfl := Host.Outcome.next.inj hexec
  obtain ⟨r, f, hr, hf, hdata⟩ := rampResponse_ok (List.singleton_inj.mp (List.append_cancel_left hresp))
  obtain ⟨hrd1, hrd, hrdw, hrdvd, -⟩ := leg_valid hr
  obtain ⟨hfd1, hfd, hfdw, hfdvd, -⟩ := leg_valid hf
  obtain ⟨⟨-, -, -, -, hguard⟩, hword⟩ := leg_survives hsync hr
  cases hdata
  have hrsat := sat32_toNat_of_pos hrdw
  have hfsat := sat32_toNat_of_pos hfdw
  refine ⟨by rwa [toNat_divider hrd], by rwa [toNat_divider hfd], by omega, by omega, r.dw, f.dw, hrsat, hfsat, hrdvd,
    hfdvd, ?_⟩
  rw [hword]
  exact hguard rfl

end Sys2Proof.Machine

/-! ### The ramp search under binary64 (R161) -/

namespace Sys2Proof.Machine

section
variable {fom : Fom} {sync D S0s T tau q st r : Rat} {sh d : Nat} {dw : Int} {rising : Bool}

/-! #### One turn, rule by rule -/

/-- A step count that is not positive skips the divider (R135). -/
theorem candidate_rounded_skip_steps (htau : Rounded.quot d sync = some tau) (hq : Rounded.quot T tau = some q)
    (hsteps : ⌈q⌉ ≤ 0) : candidate .binary64 fom sync (.fin D) (.fin S0s) (.fin T) sh rising d = none := by
  simp [candidate, timeStep, stepCount, div_rounded htau, div_rounded hq, hsteps]

/-- With a positive step count the delta word is that of R136, and the turn goes on with it. -/
theorem candidate_rounded_of_steps (htau : Rounded.quot d sync = some tau) (hq : Rounded.quot T tau = some q)
    (hsteps : ¬ ⌈q⌉ ≤ 0) (hst : Rounded.value (⌈q⌉ : Rat) = some st) (hr : Rounded.quot D st = some r)
    (hdw : 2 ^ sh * ⌊(⌈r⌉ : Rat) / 2 ^ sh⌋ = dw) :
    candidate .binary64 fom sync (.fin D) (.fin S0s) (.fin T) sh rising d =
      if dw ≤ 0 then none
      else if rising && overflows .binary64 (.fin D) (.fin S0s) dw then none
      else some ⟨d, dw, fom (.fin D) (.fin T) (.fin tau) dw (floor (div .binary64 (.fin D) (ofInt .binary64 dw)))⟩ := by
  have hfloor : floorTo ⌈r⌉ (2 ^ sh) = dw := by
    rw [← hdw, floorTo_eq _ (by positivity)]
    push_cast
    rfl
  simp [candidate, timeStep, stepCount, deltaWord, div_rounded htau, div_rounded hq, hsteps, ofInt_rounded hst,
    div_rounded hr, hfloor]

end

/-- Where the values of a turn are finite, the divider gives what `Rounded.turn` computes. -/
theorem candidate_of_turn (fom : Fom) {sync D S0s T : Rat} {sh d : Nat} {rising : Bool} {o : Option (Rat × Int × Int)}
    (h : Rounded.turn sync D S0s T sh rising d = some o) :
    candidate .binary64 fom sync (.fin D) (.fin S0s) (.fin T) sh rising d =
      o.map fun (tau, dw, nFull) => ⟨d, dw, fom (.fin D) (.fin T) (.fin tau) dw nFull⟩ := by
  simp only [Rounded.turn, bind, Option.bind_eq_some_iff] at h
  obtain ⟨tau, htau, q, hq, h⟩ := h
  split at h
  case isTrue hsteps =>
    obtain rfl := Option.some.inj h
    exact candidate_rounded_skip_steps htau hq hsteps
  case isFalse hsteps =>
    obtain ⟨st, hst, h⟩ := Option.bind_eq_some_iff.mp h
    obtain ⟨r, hr, h⟩ := Option.bind_eq_some_iff.mp h
    rw [candidate_rounded_of_steps htau hq hsteps hst hr rfl]
    generalize 2 ^ sh * ⌊(⌈r⌉ : Rat) / 2 ^ sh⌋ = dw at h ⊢
    split at h
    case isTrue hdw =>
      obtain rfl := Option.some.inj h
      rw [if_pos hdw]
      rfl
    case isFalse hdw =>
      obtain ⟨w, hw, h⟩ := Option.bind_eq_some_iff.mp h
      obtain ⟨N, hN, h⟩ := Option.bind_eq_some_iff.mp h
      rw [if_neg hdw, ofInt_rounded hw, div_rounded hN, floor_fin]
      cases rising with
      | false =>
        obtain rfl := Option.some.inj h
        rfl
      | true =>
        obtain ⟨g, hg, h⟩ := Option.bind_eq_some_iff.mp h
        simp only [overflows_rounded hg, Bool.true_and, decide_eq_true_eq]
        split at h
        case isTrue hover =>
          obtain rfl := Option.some.inj h
          rw [if_pos hover]
          rfl
        case isFalse hover =>
          obtain rfl := Option.some.inj h
          rw [if_neg hover]
          rfl

/-! #### The figure of merit in the order written (R142) -/

theorem do_eq_some_iff {α β : Type} {x : Option α} {f : α → Option β} {b : β} :
    (x >>= f) = some b ↔ ∃ a, x = some a ∧ f a = some b := Option.bind_eq_some_iff

/-- A sum from the left answers its rounded value. -/
theorem sum_rounded (ys : List Rat) {x v : Rat} (h : Rounded.sum x ys = some v) :
    (ys.map .fin).foldl (add .binary64) (.fin x) = .fin v := by
  induction ys generalizing x with
  | nil => rw [Option.some.inj h]; rfl
  | cons y ys ih =>
    obtain ⟨z, hz, hv⟩ := Option.bind_eq_some_iff.mp h
    rw [List.map_cons, List.foldl_cons, add_rounded hz]
    exact ih hv

theorem div_value_rounded {a b v : Rat} (hb : b ≠ 0) (h : Rounded.value (a / b) = some v) :
    div .binary64 (.fin a) (.fin b) = .fin v :=
  div_rounded (by rw [Rounded.quot, if_neg hb, h])

/-- Where its values are finite, so is the closed form. -/
theorem fomClosed_rounded {D T tau J : Rat} {dw m : Int} (h : Rounded.closed D T tau dw m = some J) :
    fomClosed .binary64 (.fin D) (.fin T) (.fin tau) dw m = .fin J := by
  rw [Rounded.closed] at h
  simp only [↓do_eq_some_iff] at h
  obtain ⟨sigma, hsigma, mq, hmq, m1, hm1, m2, hm2, w, hw, mt, hmt, l, hl, st, hst, e, he, e2, he2, sigma2, hsigma2,
    tau2, htau2, tau3, htau3, l2, hl2, l3, hl3, mq2, hmq2, p1, hp1, t1, ht1, p2, hp2, t2, ht2, p3, hp3, t3, ht3,
    t4, ht4, t5, ht5, p6, hp6, t6, ht6, hsum⟩ := h
  have hp1 := prod_rounded _ hp1
  have hp2 := prod_rounded _ hp2
  have hp3 := prod_rounded _ hp3
  have ht4 := prod_rounded _ ht4
  have ht5 := prod_rounded _ ht5
  have ht1 := div_value_rounded (by norm_num) ht1
  have ht2 := div_value_rounded (by norm_num) ht2
  have ht3 := div_value_rounded (by norm_num) ht3
  have ht6 := div_value_rounded (by norm_num) ht6
  have hsum := sum_rounded _ hsum
  simp only [List.map_cons, List.map_nil] at hp1 hp2 hp3 ht4 ht5
  simp only [List.map_cons, List.map_nil, List.foldl_cons, List.foldl_nil] at hsum
  simp only [fomClosed, sq, cube, div_rounded hsigma, ofInt_rounded hmq, ofInt_rounded hm1, ofInt_rounded hm2,
    ofInt_rounded hw, mul_rounded hmt, sub_rounded hl, mul_rounded hst, sub_rounded he, mul_rounded he2,
    mul_rounded hsigma2, mul_rounded htau2, mul_rounded htau3, mul_rounded hl2, mul_rounded hl3, mul_rounded hmq2,
    hp1, hp2, hp3, ht4, ht5, mul_rounded hp6, ht1, ht2, ht3, ht6, hsum]

/-- Settles O60: a turn and the closed form answer their rounded values (`candidate_of_turn`, `fomClosed_rounded`); the
selection compares finite merits as in exact arithmetic (`leg_selected`). -/
theorem rampSearchRoundsInBinary64Order : Obligations.RampSearchRoundsInBinary64Order := by
  refine ⟨fun fom sync D S0s T sh d rising o h => candidate_of_turn fom h,
    fun D T tau J dw nFull => ⟨fomClosed_rounded, fun q hq h => ?_⟩, fun fom sync D S0s T sh rising c hfin h => ?_⟩
  · simp only [fomOf, clippedSteps, div_rounded hq, floor_fin, fomClosed_rounded h]
  · have hfin' : ∀ d ∈ dividers, ∀ e, candidate .binary64 fom sync D S0s T sh rising d = some e → ∃ J, e.j = .fin J :=
      fun d hd e => hfin d e (mem_dividers.mp hd).1 (mem_dividers.mp hd).2
    obtain ⟨⟨hmem, hc⟩, hbest⟩ := leg_selected hfin' h
    obtain ⟨h1, h2⟩ := mem_dividers.mp hmem
    exact ⟨h1, h2, hc, fun d e h1 h2 he => hbest d (mem_dividers.mpr ⟨h1, h2⟩) e he⟩

end Sys2Proof.Machine

/-! ### Faults and the idle block (60_exceptions.md) -/

namespace Sys2Proof.Machine

/-! #### The commands that carry an address (R43, R173) -/

/-- `i` is one of the four register commands, at the address `a`. -/
def IsRegisterCommand (a : Nat) (i : Instr) : Prop :=
  (∃ u v, i = .setField a u v) ∨ i = .readCur a ∨ (∃ c, i = .readBank c a) ∨ ∃ u sh m v, i = .rmwField a u sh m v

namespace IsRegisterCommand

variable {a : Nat} {i : Instr}

theorem exec_out (h : IsRegisterCommand a i) (ha : 25 ≤ a) (s : State) : exec i s = .fault .addrRange := by
  obtain ⟨u, v, rfl⟩ | rfl | ⟨c, rfl⟩ | ⟨u, sh, m, v, rfl⟩ := h
  · exact exec_setField_out s ha u v
  · exact exec_readCur_out s ha
  · exact exec_readBank_out s ha c
  · exact exec_rmwField_out s ha u sh m v

theorem exec_in (h : IsRegisterCommand a i) (ha : a < 25) (s : State) : ∃ t, exec i s = .next t := by
  obtain ⟨u, v, rfl⟩ | rfl | ⟨c, rfl⟩ | ⟨u, sh, m, v, rfl⟩ := h
  · exact ⟨_, exec_setField_in s ⟨a, ha⟩ u v⟩
  · exact ⟨_, exec_readCur_in s ⟨a, ha⟩⟩
  · exact ⟨_, exec_readBank_in s c ⟨a, ha⟩⟩
  · exact ⟨_, exec_rmwField_in s ⟨a, ha⟩ u sh m v⟩

/-- R173: the address alone decides whether a register command faults. -/
theorem faults_or_completes (h : IsRegisterCommand a i) (s : State) :
    (∃ b, 24 < b ∧ exec i s = .fault .addrRange ∧ IsRegisterCommand b i) ∨ ∃ t, exec i s = .next t := by
  rcases Nat.lt_or_ge a 25 with ha | ha
  · exact .inr (h.exec_in ha s)
  · exact .inl ⟨a, ha, h.exec_out ha s, h⟩

end IsRegisterCommand

/-- Settles O14: an address below 32 is read off the port whole (O8), and its command's fault is answered (O12). -/
theorem addressOutOfRangeAnswersAddrRange : Obligations.AddressOutOfRangeAnswersAddrRange := by
  intro s a u c sh m v i rest hout hfits hsh hr hi hcmd
  have hwf : i.wf = true := by
    rcases hi with rfl | rfl | rfl | rfl <;> simp [Instr.wf, fits5, hfits, hsh]
  have hreg : IsRegisterCommand a i :=
    hi.imp (⟨u, v, ·⟩) (Or.imp_right (Or.imp (⟨c, ·⟩) (⟨u, sh, m, v, ·⟩)))
  have hd : decode s.cmd = .ok i rest := by
    rw [hcmd]
    exact decodeOfEncodeIsTheCommand i rest hwf
  exact (stepRunsTheDecodedCommand s i rest hr hd).2 .addrRange (hreg.exec_out hout _)

/-! #### The only faults of the commands (R173, R174, R176) -/

/-- Settles O16: a register command is decided by its address, RAMP_OPT by its type, and the rest complete. -/
theorem commandsFaultOnlyOnAddressAndRampType : Obligations.CommandsFaultOnlyOnAddressAndRampType := by
  intro i s
  cases i with
  | encFreq x => exact .inr (.inr ⟨_, exec_encFreq_of_trunc rfl⟩)
  | encPhase x => exact .inr (.inr ⟨_, exec_encPhase_of_trunc rfl⟩)
  | encAmp x => exact .inr (.inr ⟨_, exec_encAmp_of_trunc rfl⟩)
  | setChen e0 e1 => exact .inr (.inr ⟨_, exec_setChen s e0 e1⟩)
  | setField a u v => exact (IsRegisterCommand.faults_or_completes (.inl ⟨u, v, rfl⟩) s).imp_right .inr
  | readCur a => exact (IsRegisterCommand.faults_or_completes (.inr (.inl rfl)) s).imp_right .inr
  | readBank c a => exact (IsRegisterCommand.faults_or_completes (.inr (.inr (.inl ⟨c, rfl⟩))) s).imp_right .inr
  | rmwField a u sh m v =>
    exact (IsRegisterCommand.faults_or_completes (.inr (.inr (.inr ⟨u, sh, m, v, rfl⟩))) s).imp_right .inr
  | rampOpt t s0 e0 tr tf =>
    by_cases ht : t = .none
    · subst ht
      exact .inr (.inl ⟨⟨s0, e0, tr, tf, rfl⟩, rfl⟩)
    · exact .inr (.inr ⟨_, exec_rampOpt ht s0 e0 tr tf s⟩)

/-! #### The idle block (R188, R193) -/

/-- With no whole command on the port the block holds its state (R188, R193). -/
theorem step_of_incomplete {s : State} (hr : s.rst = false) (hd : decode s.cmd = .incomplete) : step s = .next s := by
  simp [step, hr, hd]

/-- Settles O17: an empty port holds no whole command. -/
theorem idleBlockHoldsItsState : Obligations.IdleBlockHoldsItsState := by
  intro s hr hcmd
  exact step_of_incomplete hr (by rw [hcmd]; rfl)

end Sys2Proof.Machine

/-! ### Reset (70_reset_and_hazards.md) -/

namespace Sys2Proof.Machine

/-! #### The clocks a reset accepts (R6, R192) -/

/-- Rounding makes no positive value of a number that is not positive: 0 is a binary64 number, and nearer. -/
theorem pos_of_round64_pos {q v : Rat} (h : round64 q = .fin v) (hv : 0 < v) : 0 < q := by
  by_contra hq
  have hq : q ≤ 0 := not_lt.mp hq
  have hzero : HasPrecision64 0 := ⟨0, 0, by norm_num, by norm_num, by norm_num⟩
  obtain ⟨hnear, -⟩ := nearestEven_of_round64 h hzero
  rw [sub_zero, abs_of_nonpos hq, abs_of_nonpos (by linarith)] at hnear
  linarith

theorem pos_of_rnd_pos {n : Numeric} {q v : Rat} (h : rnd n q = .fin v) (hv : 0 < v) : 0 < q := by
  cases n with
  | exact => exact (Quantity.fin.inj h).symm ▸ hv
  | binary64 => exact pos_of_round64_pos h hv

/-- The clocks of a loaded configuration are those presented, in the block's arithmetic. -/
theorem clockConfig_rnd {n : Numeric} {p : ClockPort} {c : ClockConfig} (h : clockConfig n p = some c) :
    rnd n p.refClk = .fin c.refClk ∧ rnd n p.pllMult = .fin c.pllMult := by
  unfold clockConfig at h
  split at h
  · next r m hr hm =>
    split at h
    · split at h
      · obtain ⟨-, hc⟩ := Option.ite_none_right_eq_some.mp h
        obtain rfl := Option.some.inj hc
        exact ⟨hr, hm⟩
      · cases h
    · cases h
  · cases h

/-- A reset loads `c` exactly where `c` holds the presented clocks, as the arithmetic rounds them, and is good (R6). -/
theorem clockConfig_eq_some_iff {n : Numeric} {p : ClockPort} {c : ClockConfig} :
    clockConfig n p = some c ↔
      rnd n p.refClk = .fin c.refClk ∧ rnd n p.pllMult = .fin c.pllMult ∧ ClockConfig.Good n c := by
  constructor
  · intro h
    obtain ⟨href, hpll⟩ := clockConfig_rnd h
    exact ⟨href, hpll, clockConfig_good h⟩
  · rintro ⟨href, hpll, hr, hm, hsys, hsync, hmul, hdiv⟩
    simp [clockConfig, href, hpll, hmul, hdiv, hr, hm, hsys, hsync]

/-- R192: with a clock that is not positive there is no configuration to load, in either arithmetic. -/
theorem clockConfig_eq_none {p : ClockPort} (n : Numeric) (h : p.refClk ≤ 0 ∨ p.pllMult ≤ 0) :
    clockConfig n p = none := by
  by_contra hsome
  obtain ⟨c, hc⟩ := Option.ne_none_iff_exists'.mp hsome
  obtain ⟨href, hpll, hr, hm, -⟩ := clockConfig_eq_some_iff.mp hc
  rcases h with h | h
  · exact h.not_gt (pos_of_rnd_pos href hr)
  · exact h.not_gt (pos_of_rnd_pos hpll hm)

/-! #### The step that takes a reset (R190) -/

section
variable {s : State} (hr : s.rst = true)
include hr

/-- A requested reset comes before what waits on the command port (notes/assumptions/5.md). -/
theorem step_of_rst : step s = acceptReset s := if_pos hr

theorem step_of_clockConfig {c : ClockConfig} (hc : clockConfig s.par.numeric s.cfgPort = some c) :
    step s = .next (s.loadReset c) := by
  rw [step_of_rst hr, acceptReset, hc]

theorem step_of_clockConfig_none (hc : clockConfig s.par.numeric s.cfgPort = none) :
    step s = .refused .notConstructible := by
  rw [step_of_rst hr, acceptReset, hc]

end

/-- Settles O3: either arithmetic derives the named configuration from the presented clocks, and the step loads it. -/
theorem resetStepLoadsParameters : Obligations.ResetStepLoadsParameters := by
  intro s ref pll sys sync hr hclocks
  refine step_of_clockConfig hr ?_
  rcases hclocks with ⟨hn, hp, rfl, rfl, href, hpll⟩ | ⟨hn, href, hpll, hsys, hsync, hpos⟩
  · rw [hn, hp]
    exact clockConfig_exact ⟨ref, pll⟩ href hpll
  · obtain ⟨hr0, hp0, hs0, hy0⟩ := hpos
    rw [hn]
    have hdiv : div .binary64 (.fin sys) (.fin 4) = .fin sync := (div_fin .binary64 four_ne_zero).trans hsync
    exact clockConfig_eq_some_iff.mpr ⟨href, hpll, hr0, hp0, hs0, hy0, hsys, hdiv⟩

/-- Settles O4: a clock that is not positive leaves no configuration to load. -/
theorem nonPositiveClockResetRefused : Obligations.NonPositiveClockResetRefused := by
  intro s hr hclock
  exact step_of_clockConfig_none hr (clockConfig_eq_none s.par.numeric hclock)

end Sys2Proof.Machine
